-- ==== Sys2Proof/Word.lean ====
section
/-! DEFINITION. The widths of the MCUS core's values (00_scope.md R7, R9). -/

namespace Sys2Proof

/-- A memory cell, a register or an instruction word: the `u16` of 00_scope.md R9. -/
abbrev Word := BitVec 16

/-- A memory address, 0 to 255 (20_memory.md R50, R51): it names one whole word. -/
abbrev Address := BitVec 8

/-- A register number, 0 to 7 (10_state.md R22). -/
abbrev RegIndex := BitVec 3

/-- The 9-bit program counter, which holds 0 to 256 (10_state.md R24, 92_eei_decisions.md D1). -/
abbrev ProgramCounter := BitVec 9

/-- The 4-bit opcode of an instruction word (30_encoding.md R73). -/
abbrev OpcodeBits := BitVec 4

end Sys2Proof
end

