-- ==== Sys2Proof/Config.lean ====
section
/-! DEFINITION. What is fixed for the machine: the implementation parameters of 00_scope.md R7 and the
reference values of the three launch parameters. The spec leaves no value of a step open, so there is
no free value here. -/

namespace Sys2Proof

/-- `MEM_WORDS`: the number of memory cells (00_scope.md R7). -/
abbrev Config.memWords : Nat := 256

/-- `NREGS`: the number of general registers (00_scope.md R7). -/
abbrev Config.numRegs : Nat := 8

/-- What a memory cell that is not listed reads as: the reference value of `mem_init` for a cell the
program does not place (92_eei_decisions.md D5). DESIGN CHOICE, unsafe: log 2. -/
def Config.unlistedWord : Word := 0x0000#16

/-- The reference value of `reg_init` for every register (10_state.md R32, D3). DESIGN CHOICE, unsafe:
log 3. -/
def Config.regInit : Word := 0x0000#16

/-- The reference value of `pc_init` (10_state.md R32, D4). DESIGN CHOICE, unsafe: log 4. -/
def Config.pcInit : Address := 0x00#8

end Sys2Proof
end

