-- ==== Sys2Proof/Machine/State.lean ====
section
/-! DEFINITION. The machine's state as plain data (10_state.md), the trace record (R38), the reasons a
step can stop, and the state after reset. -/

namespace Sys2Proof.Machine

/-- The 256-word memory (10_state.md R21) as its listed cells: an address and the word there. A cell that
is not listed reads as `Config.unlistedWord`. The unit is the 16-bit word, which the core never splits
(20_memory.md R51, R54). DESIGN CHOICE, safe: log 1. -/
abbrev Memory := List (Nat × Word)

/-- The canonical form of a memory: addresses strictly rising, all of them 0 to 255, and no entry equal
to what an unlisted cell reads as. Equal memories are then equal lists. -/
abbrev Memory.wf (m : Memory) : Prop :=
  m.Pairwise (fun c d => c.1 < d.1) ∧
    ∀ c ∈ m, c.1 < Config.memWords ∧ c.2 ≠ Config.unlistedWord

/-- The `kind` of a trace record (10_state.md R38). -/
inductive TraceKind where
  | load | store | add | sub | and | or | jmp | halt | unknownOpcode
  deriving DecidableEq, Repr

/-- A register or memory word a step read, with the value read (10_state.md R38, `reads`). -/
inductive TraceRead where
  | reg (r : RegIndex) (v : Word)
  | mem (a : Address) (v : Word)
  deriving DecidableEq, Repr

/-- A piece of state a step wrote, with the value written (10_state.md R38, `writes`). -/
inductive TraceWrite where
  | reg (r : RegIndex) (v : Word)
  | mem (a : Address) (v : Word)
  | pc (t : ProgramCounter)
  | running (b : Bool)
  deriving DecidableEq, Repr

/-- One trace record, with the fields of 10_state.md R38. -/
structure TraceRecord where
  pcFetch : Address
  word : Word
  opcode : OpcodeBits
  kind : TraceKind
  reads : List TraceRead
  writes : List TraceWrite
  result : Option Word
  deriving DecidableEq, Repr

/-- The state. The first four fields are the architectural state of 10_state.md R20; `trace` is the
model's own field for what the trace interface has output, oldest first (R38, 40_sequencer.md R109;
log 8), which no step reads. -/
structure State where
  /-- `memory` (10_state.md R21) -/
  mem : Memory
  /-- `registers`, R0 to R7 (10_state.md R22) -/
  regs : Vector Word 8
  /-- `program_counter` (10_state.md R24) -/
  pc : ProgramCounter
  /-- `running` (10_state.md R27) -/
  running : Bool
  /-- the trace records emitted so far (40_sequencer.md R109); not architectural -/
  trace : List TraceRecord
  deriving DecidableEq, Repr

/-- Why the machine stops with a fault. -/
inductive Fault where
  /-- `PcOutOfRange(pc)` (60_exceptions.md R176): raised by the fetch at the start of a step with
  `running` true and `pc` over 255. Safe: the source leaves the case undefined, so the model claims no
  state after it (log 7). -/
  | pcOutOfRange (pc : ProgramCounter)
  deriving DecidableEq, Repr

/-- Why a step is refused. -/
inductive Refusal where
  /-- An instruction with no meaning yet. Raised by no arm of this model. Safe. -/
  | notModelled (mnemonic : String)
  /-- A step request in HALTED, which the engine does not accept (10_state.md R34, R37). Raised by the
  fetch. Safe: a halted state has no successor (log 6). -/
  | halted
  deriving DecidableEq, Repr

/-- The machine right after reset: the start of 70_reset_and_hazards.md R190 on the reference
configuration of 10_state.md R32 (logs 2, 3, 4), with `running` true as the source states. -/
def State.reset : State :=
  { mem := []
    regs := Vector.replicate 8 Config.regInit
    pc := Config.pcInit.setWidth 9
    running := true
    trace := [] }

end Sys2Proof.Machine
end

