-- ==== Sys2Proof/Machine/Ops.lean ====
section
/-! DEFINITION. The named operations over memory, registers and the program counter: the state primitives
of 00_scope.md R11 and the access primitives of 20_memory.md R55. The core takes no exception and returns
from none (60_exceptions.md R170, R175), so there is no such operation here; the two ways the engine
stops are in Flags.lean and Control.lean. -/

namespace Sys2Proof.Machine

/-- The word at an address. -/
def Memory.read : Memory → Nat → Word
  | [], _ => Config.unlistedWord
  | (k, v) :: rest, a => if k = a then v else Memory.read rest a

/-- List `v` at `a`, in the place that keeps the addresses rising. -/
def Memory.insert : Memory → Nat → Word → Memory
  | [], a, v => [(a, v)]
  | (k, x) :: rest, a, v =>
    if a < k then (a, v) :: (k, x) :: rest
    else if a = k then (a, v) :: rest
    else (k, x) :: Memory.insert rest a v

/-- Take the address out of the list. -/
def Memory.erase (m : Memory) (a : Nat) : Memory := m.filter (fun c => c.1 != a)

/-- Write a word, keeping the canonical form: the value an unlisted cell reads as is not listed. -/
def Memory.write (m : Memory) (a : Nat) (v : Word) : Memory :=
  if v = Config.unlistedWord then m.erase a else m.insert a v

/-- `MemRead(a, 1)` (00_scope.md R11, 20_memory.md R55). -/
def State.memRead (s : State) (a : Address) : Word := s.mem.read a.toNat

/-- `MemWrite(a, 1, v)` (00_scope.md R11, 20_memory.md R55). -/
def State.memWrite (s : State) (a : Address) (v : Word) : State :=
  { s with mem := s.mem.write a.toNat v }

/-- `x[r]` (00_scope.md R11): every register is general, none is hardwired (10_state.md R22). -/
def State.reg (s : State) (r : RegIndex) : Word := s.regs[r.toNat]'r.isLt

/-- `x[r] <- v` (00_scope.md R11). -/
def State.setReg (s : State) (r : RegIndex) (v : Word) : State :=
  { s with regs := s.regs.set r.toNat v r.isLt }

/-- `pc <- t` (00_scope.md R11). -/
def State.setPc (s : State) (t : ProgramCounter) : State := { s with pc := t }

/-- The increment source of the PC sequencer, `pc_fetch + 1` in 9 bits (40_sequencer.md R104). The step
calls it with `pc` at most 255, so it never wraps in a step (10_state.md R26; log 10). -/
def nextPc (pc : ProgramCounter) : ProgramCounter := pc + 1#9

/-- `pc <- pc_fetch + 1`: no rule writes `pc` earlier in its step, so `pc` is still `pc_fetch`
(40_sequencer.md R101). -/
def State.advance (s : State) : State := s.setPc (nextPc s.pc)

/-- `emit Trace{...}` (00_scope.md R11, 40_sequencer.md R109). -/
def State.emit (s : State) (r : TraceRecord) : State := { s with trace := s.trace ++ [r] }

/-- The address a fetch uses, for a `pc` in 0 to 255 (10_state.md R24). -/
def fetchAddress (pc : ProgramCounter) : Address := pc.setWidth 8

/-- Place an instruction word where the next step fetches, and what a fetch needs beside it: RUNNING, and
a `pc` in 0 to 255 (0 where it was over 255). It stands for the loader's work (10_state.md R39; log 5). -/
def State.placeWord (s : State) (w : Word) : State :=
  let pc := if s.pc.toNat ≤ 255 then s.pc else 0#9
  { s with mem := s.mem.write (fetchAddress pc).toNat w, pc := pc, running := true }

end Sys2Proof.Machine
end

