-- ==== Sys2Proof/Machine/Operands.lean ====
section
/-! DEFINITION. How a sub-field becomes a register number, a memory address or a new pc: zero-extended,
never sign-extended, scaled or pc-relative (30_encoding.md R80). The 3-bit register fields `reg`, `reg1`
and `reg2` are register numbers as they stand. -/

namespace Sys2Proof.Machine

/-- `a = zext(word[4:0])`, a memory address in 0 to 31 (30_encoding.md R80). -/
def dataAddress (addr : BitVec 5) : Address := addr.setWidth 8

/-- `d = zext(word[1:0])`, a register in R0 to R3 (30_encoding.md R80, R81). -/
def destRegister (dest : BitVec 2) : RegIndex := dest.setWidth 3

/-- `target = zext_9(word[7:0])`, the new pc in 0 to 255 (30_encoding.md R80). -/
def jumpTarget (target : BitVec 8) : ProgramCounter := target.setWidth 9

end Sys2Proof.Machine
end

