-- ==== Sys2Proof/Machine/Alu.lean ====
section
/-! DEFINITION. The ALU and ADD, SUB, AND, OR (42_alu.md). -/

namespace Sys2Proof.Machine

/-- The ALU (42_alu.md R130): arithmetic modulo 2^16, bitwise logic, and zero for any other opcode, which
no dispatch reaches. -/
def alu (op : OpcodeBits) (a b : Word) : Word :=
  if op = 0x2#4 then a + b
  else if op = 0x3#4 then a - b
  else if op = 0x5#4 then a &&& b
  else if op = 0x6#4 then a ||| b
  else 0x0000#16

/-- The shared execute path of the four ALU instructions (42_alu.md R135): both sources are read before
the destination is written. -/
def aluExecute (op : OpcodeBits) (reg1 reg2 : BitVec 3) (dest : BitVec 2) (s : State) :
    Host.Outcome State Fault Refusal :=
  .next (s.setReg (destRegister dest) (alu op (s.reg reg1) (s.reg reg2))).advance

/-- ADD (42_alu.md R131). -/
def execAdd (reg1 reg2 : BitVec 3) (dest : BitVec 2) (s : State) : Host.Outcome State Fault Refusal :=
  aluExecute 0x2#4 reg1 reg2 dest s

/-- SUB (42_alu.md R132). -/
def execSub (reg1 reg2 : BitVec 3) (dest : BitVec 2) (s : State) : Host.Outcome State Fault Refusal :=
  aluExecute 0x3#4 reg1 reg2 dest s

/-- AND (42_alu.md R133). -/
def execAnd (reg1 reg2 : BitVec 3) (dest : BitVec 2) (s : State) : Host.Outcome State Fault Refusal :=
  aluExecute 0x5#4 reg1 reg2 dest s

/-- OR (42_alu.md R134). -/
def execOr (reg1 reg2 : BitVec 3) (dest : BitVec 2) (s : State) : Host.Outcome State Fault Refusal :=
  aluExecute 0x6#4 reg1 reg2 dest s

end Sys2Proof.Machine
end

