-- ==== Sys2Proof/Machine/Flags.lean ====
section
/-! DEFINITION. The one flag of the core, `running` (10_state.md R27). There are no condition codes: the
ALU produces none and no instruction reads one (R28). -/

namespace Sys2Proof.Machine

/-- `running <- false` (10_state.md R27). No operation sets it to true. -/
def State.clearRunning (s : State) : State := { s with running := false }

/-- The two states of the halt state machine (10_state.md R33). -/
inductive HaltState where
  | running
  | halted
  deriving DecidableEq, Repr

/-- The halt state is not stored apart from `running` (10_state.md R33). -/
def State.haltState (s : State) : HaltState := if s.running then .running else .halted

end Sys2Proof.Machine
end

