-- ==== Sys2Proof/Machine/Control.lean ====
section
/-! DEFINITION. JMP, HALT and the undefined opcode (43_control.md). -/

namespace Sys2Proof.Machine

/-- JMP (43_control.md R150): absolute, and `pc` is not incremented afterwards. -/
def execJmp (target : BitVec 8) (s : State) : Host.Outcome State Fault Refusal :=
  .next (s.setPc (jumpTarget target))

/-- HALT (43_control.md R151): `pc` still advances. -/
def execHalt (s : State) : Host.Outcome State Fault Refusal :=
  .next s.clearRunning.advance

/-- The error halt of an undefined opcode (43_control.md R155): `running` is cleared and nothing else
changes, `pc` included. It is no trap (60_exceptions.md R170, R174). -/
def errorHalt (s : State) : Host.Outcome State Fault Refusal :=
  .next s.clearRunning

/-- Opcode 0x0 (43_control.md R155). -/
def execUndefined0x0 (s : State) : Host.Outcome State Fault Refusal := errorHalt s

/-- Opcode 0x8 (43_control.md R155). -/
def execUndefined0x8 (s : State) : Host.Outcome State Fault Refusal := errorHalt s

/-- Opcode 0x9 (43_control.md R155). -/
def execUndefined0x9 (s : State) : Host.Outcome State Fault Refusal := errorHalt s

/-- Opcode 0xA (43_control.md R155). -/
def execUndefined0xA (s : State) : Host.Outcome State Fault Refusal := errorHalt s

/-- Opcode 0xB (43_control.md R155). -/
def execUndefined0xB (s : State) : Host.Outcome State Fault Refusal := errorHalt s

/-- Opcode 0xC (43_control.md R155). -/
def execUndefined0xC (s : State) : Host.Outcome State Fault Refusal := errorHalt s

/-- Opcode 0xD (43_control.md R155). -/
def execUndefined0xD (s : State) : Host.Outcome State Fault Refusal := errorHalt s

/-- Opcode 0xE (43_control.md R155). -/
def execUndefined0xE (s : State) : Host.Outcome State Fault Refusal := errorHalt s

end Sys2Proof.Machine
end

