-- ==== Sys2Proof/Machine/LoadStore.lean ====
section
/-! DEFINITION. LOAD and STORE (41_load_store.md). -/

namespace Sys2Proof.Machine

/-- LOAD (41_load_store.md R120). -/
def execLoad (reg : BitVec 3) (addr : BitVec 5) (s : State) : Host.Outcome State Fault Refusal :=
  .next (s.setReg reg (s.memRead (dataAddress addr))).advance

/-- STORE (41_load_store.md R121). -/
def execStore (reg : BitVec 3) (addr : BitVec 5) (s : State) : Host.Outcome State Fault Refusal :=
  .next (s.memWrite (dataAddress addr) (s.reg reg)).advance

end Sys2Proof.Machine
end

