-- ==== Sys2Proof/Syntax.lean ====
section
/-! DEFINITION. The instructions: one constructor per row of spec/opcode_table.json, its operands the
row's fields at the row's widths; and the written form that 30_encoding.md R88 gives the spec's examples. -/

namespace Sys2Proof

/-- The instructions of 30_encoding.md R78. An operand has exactly the width of its field (R74), so each
value of each operand is legal (R83). The ignored bits (R72, R77) are no part of an instruction. -/
inductive Instr where
  /-- LOAD (41_load_store.md R120): `x[reg] <- memory[addr]`. -/
  | load (reg : BitVec 3) (addr : BitVec 5)
  /-- ADD (42_alu.md R131): `x[dest] <- x[reg1] + x[reg2]`. -/
  | add (reg1 reg2 : BitVec 3) (dest : BitVec 2)
  /-- SUB (42_alu.md R132): `x[dest] <- x[reg1] - x[reg2]`. -/
  | sub (reg1 reg2 : BitVec 3) (dest : BitVec 2)
  /-- STORE (41_load_store.md R121): `memory[addr] <- x[reg]`. -/
  | store (reg : BitVec 3) (addr : BitVec 5)
  /-- AND (42_alu.md R133): `x[dest] <- x[reg1] & x[reg2]`. -/
  | and (reg1 reg2 : BitVec 3) (dest : BitVec 2)
  /-- OR (42_alu.md R134): `x[dest] <- x[reg1] | x[reg2]`. -/
  | or (reg1 reg2 : BitVec 3) (dest : BitVec 2)
  /-- JMP (43_control.md R150): `pc <- target`. -/
  | jmp (target : BitVec 8)
  /-- HALT (43_control.md R151). -/
  | halt
  /-- Undefined opcode 0x0 (43_control.md R155): the error halt. -/
  | undefined0x0
  /-- Undefined opcode 0x8 (43_control.md R155). -/
  | undefined0x8
  /-- Undefined opcode 0x9 (43_control.md R155). -/
  | undefined0x9
  /-- Undefined opcode 0xA (43_control.md R155). -/
  | undefined0xA
  /-- Undefined opcode 0xB (43_control.md R155). -/
  | undefined0xB
  /-- Undefined opcode 0xC (43_control.md R155). -/
  | undefined0xC
  /-- Undefined opcode 0xD (43_control.md R155). -/
  | undefined0xD
  /-- Undefined opcode 0xE (43_control.md R155). -/
  | undefined0xE
  deriving DecidableEq, Repr

/-- The opcode of an instruction in the map of 30_encoding.md R78. -/
def Instr.opcode : Instr → OpcodeBits
  | .load _ _ => 0x1#4
  | .add _ _ _ => 0x2#4
  | .sub _ _ _ => 0x3#4
  | .store _ _ => 0x4#4
  | .and _ _ _ => 0x5#4
  | .or _ _ _ => 0x6#4
  | .jmp _ => 0x7#4
  | .halt => 0xF#4
  | .undefined0x0 => 0x0#4
  | .undefined0x8 => 0x8#4
  | .undefined0x9 => 0x9#4
  | .undefined0xA => 0xA#4
  | .undefined0xB => 0xB#4
  | .undefined0xC => 0xC#4
  | .undefined0xD => 0xD#4
  | .undefined0xE => 0xE#4

/-- A line of the written form of 30_encoding.md R88: operands are plain numbers, so a line can name an
operand out of range. Operands stand in the order in which R88 writes them. -/
inductive SourceLine where
  /-- `LOAD Rr <= MEM[a]` -/
  | load (r a : Nat)
  /-- `STORE MEM[a] <= Rr` -/
  | store (a r : Nat)
  /-- `ADD Rd = Rs + Rt` -/
  | add (d s t : Nat)
  /-- `SUB Rd = Rs - Rt` -/
  | sub (d s t : Nat)
  /-- `AND Rd = Rs & Rt` -/
  | and (d s t : Nat)
  /-- `OR Rd = Rs | Rt` -/
  | or (d s t : Nat)
  /-- `JMP n` -/
  | jmp (n : Nat)
  /-- `HALT` -/
  | halt
  /-- `.word v`: a data word -/
  | word (v : Nat)
  deriving DecidableEq, Repr

end Sys2Proof
end

