-- ==== Sys2Proof/Machine/Dispatch.lean ====
section
/-! DEFINITION. The dispatch (40_sequencer.md R100, R102): one arm per instruction. -/

namespace Sys2Proof.Machine

/-- One instruction's effect on the state. -/
def exec (i : Instr) (s : State) : Host.Outcome State Fault Refusal :=
  match i with
  | .load reg addr => Sys2Proof.Machine.execLoad reg addr s
  | .add reg1 reg2 dest => Sys2Proof.Machine.execAdd reg1 reg2 dest s
  | .sub reg1 reg2 dest => Sys2Proof.Machine.execSub reg1 reg2 dest s
  | .store reg addr => Sys2Proof.Machine.execStore reg addr s
  | .and reg1 reg2 dest => Sys2Proof.Machine.execAnd reg1 reg2 dest s
  | .or reg1 reg2 dest => Sys2Proof.Machine.execOr reg1 reg2 dest s
  | .jmp target => Sys2Proof.Machine.execJmp target s
  | .halt => Sys2Proof.Machine.execHalt s
  | .undefined0x0 => Sys2Proof.Machine.execUndefined0x0 s
  | .undefined0x8 => Sys2Proof.Machine.execUndefined0x8 s
  | .undefined0x9 => Sys2Proof.Machine.execUndefined0x9 s
  | .undefined0xA => Sys2Proof.Machine.execUndefined0xA s
  | .undefined0xB => Sys2Proof.Machine.execUndefined0xB s
  | .undefined0xC => Sys2Proof.Machine.execUndefined0xC s
  | .undefined0xD => Sys2Proof.Machine.execUndefined0xD s
  | .undefined0xE => Sys2Proof.Machine.execUndefined0xE s

end Sys2Proof.Machine
end

