-- ==== Sys2Proof/Machine/Sequencer.lean ====
section
/-! DEFINITION. The start of a step: whether the request is accepted, the range check and the fetch
(40_sequencer.md R100, first lines). -/

namespace Sys2Proof.Machine

/-- The word a step fetches. In HALTED the request is not accepted (10_state.md R34, R37); with `pc` over
255 the step faults before any fetch (60_exceptions.md R173, R176). -/
def fetch (s : State) : Host.Outcome Word Fault Refusal :=
  if s.running then
    if s.pc.toNat ≤ 255 then .next (s.memRead (fetchAddress s.pc))
    else .fault (.pcOutOfRange s.pc)
  else .refused .halted

end Sys2Proof.Machine
end

