-- ==== Sys2Proof/WellFormed.lean ====
section
/-! DEFINITION. The named checks the spec gives: the operand ranges of a source line (30_encoding.md R88)
and the canonical word (R85). A term of `Instr` needs no check: its operand types are its fields' ranges
(R83). The machine itself runs every word, canonical or not (R72). -/

namespace Sys2Proof

/-- A source register or a LOAD or STORE register is 0 to 7 (30_encoding.md R88). -/
def regNumberOk (r : Nat) : Bool := decide (r < Config.numRegs)

/-- An ALU destination is R0 to R3 (30_encoding.md R81, R88). -/
def destNumberOk (d : Nat) : Bool := decide (d < 4)

/-- A LOAD or STORE address is 0 to 31 (30_encoding.md R88). -/
def dataAddressOk (a : Nat) : Bool := decide (a < 32)

/-- A JMP target is 0 to 255 (30_encoding.md R88). -/
def jumpTargetOk (n : Nat) : Bool := decide (n < Config.memWords)

/-- A data word is any 16-bit value (30_encoding.md R88). -/
def dataWordOk (v : Nat) : Bool := decide (v < 65536)

/-- The operands of an ALU line (30_encoding.md R88). -/
def aluOperandsOk (d s t : Nat) : Bool := destNumberOk d && regNumberOk s && regNumberOk t

/-- The operand constraints of 30_encoding.md R88: a line that fails them names no instruction. -/
def SourceLine.wellFormed : SourceLine → Bool
  | .load r a => regNumberOk r && dataAddressOk a
  | .store a r => dataAddressOk a && regNumberOk r
  | .add d s t => aluOperandsOk d s t
  | .sub d s t => aluOperandsOk d s t
  | .and d s t => aluOperandsOk d s t
  | .or d s t => aluOperandsOk d s t
  | .jmp n => jumpTargetOk n
  | .halt => true
  | .word v => dataWordOk v

/-- A canonical word has bits 15 to 12 equal to zero (30_encoding.md R85). -/
def canonicalWord (w : Word) : Bool := decide (w.extractLsb' 12 4 = 0#4)

end Sys2Proof
end

