-- ==== Sys2Proof/Decode.lean ====
section
/-! DEFINITION. The instruction decoder (30_encoding.md sections 1 to 4), the encoder (section 6, R89),
and the opcode map as rows of mask and match (R78, R79). The decoder is total: each of the 65,536 words
decodes (R71, R84), so it refuses none. -/

namespace Sys2Proof

/-- The decoder's outputs for one word (10_state.md R36): opcode, operand and all six sub-fields of
30_encoding.md R74, whichever of them the selected instruction uses. -/
structure DecodedWord where
  opcode : OpcodeBits
  operand : BitVec 8
  reg : BitVec 3
  addr : BitVec 5
  reg1 : BitVec 3
  reg2 : BitVec 3
  dest : BitVec 2
  target : BitVec 8
  deriving DecidableEq, Repr

/-- `word[11:8]` (30_encoding.md R71). -/
def opcodeField (w : Word) : OpcodeBits := w.extractLsb' 8 4

/-- `word[7:0]` (30_encoding.md R71). -/
def operandField (w : Word) : BitVec 8 := w.extractLsb' 0 8

/-- The decoder of 30_encoding.md R71 with the sub-fields of R74, each an unsigned field of the
operand. -/
def decodeFields (w : Word) : DecodedWord :=
  { opcode := opcodeField w
    operand := operandField w
    reg := (operandField w).extractLsb' 5 3
    addr := (operandField w).extractLsb' 0 5
    reg1 := (operandField w).extractLsb' 5 3
    reg2 := (operandField w).extractLsb' 2 3
    dest := (operandField w).extractLsb' 0 2
    target := operandField w }

/-- The opcode map of 30_encoding.md R78, each of the 16 values with its own case; the last case is the
one value left, 0xF. -/
def selectInstr (f : DecodedWord) : Instr :=
  match f.opcode with
  | 0x0#4 => .undefined0x0
  | 0x1#4 => .load f.reg f.addr
  | 0x2#4 => .add f.reg1 f.reg2 f.dest
  | 0x3#4 => .sub f.reg1 f.reg2 f.dest
  | 0x4#4 => .store f.reg f.addr
  | 0x5#4 => .and f.reg1 f.reg2 f.dest
  | 0x6#4 => .or f.reg1 f.reg2 f.dest
  | 0x7#4 => .jmp f.target
  | 0x8#4 => .undefined0x8
  | 0x9#4 => .undefined0x9
  | 0xA#4 => .undefined0xA
  | 0xB#4 => .undefined0xB
  | 0xC#4 => .undefined0xC
  | 0xD#4 => .undefined0xD
  | 0xE#4 => .undefined0xE
  | _ => .halt

/-- The instruction a word is (30_encoding.md R71, R73, R78). -/
def decode (w : Word) : Instr := selectInstr (decodeFields w)

/-- Format LS (30_encoding.md R75, R89): `match | (reg << 5) | addr`. -/
def encodeLS (pattern : Word) (reg : BitVec 3) (addr : BitVec 5) : Word :=
  pattern ||| (reg.setWidth 16 <<< 5) ||| addr.setWidth 16

/-- Format ALU (30_encoding.md R76, R89): `match | (reg1 << 5) | (reg2 << 2) | dest`. -/
def encodeALU (pattern : Word) (reg1 reg2 : BitVec 3) (dest : BitVec 2) : Word :=
  pattern ||| (reg1.setWidth 16 <<< 5) ||| (reg2.setWidth 16 <<< 2) ||| dest.setWidth 16

/-- The canonical word of an instruction (30_encoding.md R89). An undefined opcode's canonical word has
its operand, which is ignored (R77), zero: R89 has no line for it. DESIGN CHOICE, safe: log 15. -/
def encode : Instr → Word
  | .load reg addr => encodeLS 0x0100#16 reg addr
  | .add reg1 reg2 dest => encodeALU 0x0200#16 reg1 reg2 dest
  | .sub reg1 reg2 dest => encodeALU 0x0300#16 reg1 reg2 dest
  | .store reg addr => encodeLS 0x0400#16 reg addr
  | .and reg1 reg2 dest => encodeALU 0x0500#16 reg1 reg2 dest
  | .or reg1 reg2 dest => encodeALU 0x0600#16 reg1 reg2 dest
  | .jmp target => 0x0700#16 ||| target.setWidth 16
  | .halt => 0x0F00#16
  | .undefined0x0 => 0x0000#16
  | .undefined0x8 => 0x0800#16
  | .undefined0x9 => 0x0900#16
  | .undefined0xA => 0x0A00#16
  | .undefined0xB => 0x0B00#16
  | .undefined0xC => 0x0C00#16
  | .undefined0xD => 0x0D00#16
  | .undefined0xE => 0x0E00#16

/-- One row of the opcode map: a word selects it when its masked bits equal the match value
(30_encoding.md R79). -/
structure OpcodeRow where
  mnemonic : String
  mask : Word
  pattern : Word
  deriving DecidableEq, Repr

/-- Whether a word selects a row: `(word & mask) = match` (30_encoding.md R79). -/
def OpcodeRow.selects (row : OpcodeRow) (w : Word) : Bool := decide (w &&& row.mask = row.pattern)

/-- The rows of spec/opcode_table.json, in its order (30_encoding.md R78, R79). -/
def opcodeTable : List OpcodeRow :=
  [ ⟨"LOAD", 0x0F00#16, 0x0100#16⟩, ⟨"ADD", 0x0F00#16, 0x0200#16⟩, ⟨"SUB", 0x0F00#16, 0x0300#16⟩,
    ⟨"STORE", 0x0F00#16, 0x0400#16⟩, ⟨"AND", 0x0F00#16, 0x0500#16⟩, ⟨"OR", 0x0F00#16, 0x0600#16⟩,
    ⟨"JMP", 0x0F00#16, 0x0700#16⟩, ⟨"HALT", 0x0F00#16, 0x0F00#16⟩,
    ⟨"UNDEFINED_0x0", 0x0F00#16, 0x0000#16⟩, ⟨"UNDEFINED_0x8", 0x0F00#16, 0x0800#16⟩,
    ⟨"UNDEFINED_0x9", 0x0F00#16, 0x0900#16⟩, ⟨"UNDEFINED_0xA", 0x0F00#16, 0x0A00#16⟩,
    ⟨"UNDEFINED_0xB", 0x0F00#16, 0x0B00#16⟩, ⟨"UNDEFINED_0xC", 0x0F00#16, 0x0C00#16⟩,
    ⟨"UNDEFINED_0xD", 0x0F00#16, 0x0D00#16⟩, ⟨"UNDEFINED_0xE", 0x0F00#16, 0x0E00#16⟩ ]

/-- The mnemonic of an instruction's row in spec/opcode_table.json. -/
def Instr.mnemonic : Instr → String
  | .load _ _ => "LOAD"
  | .add _ _ _ => "ADD"
  | .sub _ _ _ => "SUB"
  | .store _ _ => "STORE"
  | .and _ _ _ => "AND"
  | .or _ _ _ => "OR"
  | .jmp _ => "JMP"
  | .halt => "HALT"
  | .undefined0x0 => "UNDEFINED_0x0"
  | .undefined0x8 => "UNDEFINED_0x8"
  | .undefined0x9 => "UNDEFINED_0x9"
  | .undefined0xA => "UNDEFINED_0xA"
  | .undefined0xB => "UNDEFINED_0xB"
  | .undefined0xC => "UNDEFINED_0xC"
  | .undefined0xD => "UNDEFINED_0xD"
  | .undefined0xE => "UNDEFINED_0xE"

/-- The encoder of 30_encoding.md R89 on operands that passed R88's check: each operand is a number, and
the word is the `|` of the shifted numbers, as R89 writes it. -/
def SourceLine.bits : SourceLine → Nat
  | .load r a => 0x0100 ||| (r <<< 5) ||| a
  | .store a r => 0x0400 ||| (r <<< 5) ||| a
  | .add d s t => 0x0200 ||| (s <<< 5) ||| (t <<< 2) ||| d
  | .sub d s t => 0x0300 ||| (s <<< 5) ||| (t <<< 2) ||| d
  | .and d s t => 0x0500 ||| (s <<< 5) ||| (t <<< 2) ||| d
  | .or d s t => 0x0600 ||| (s <<< 5) ||| (t <<< 2) ||| d
  | .jmp n => 0x0700 ||| n
  | .halt => 0x0F00
  | .word v => v

/-- The word of a source line, or none for a line that R88 refuses (30_encoding.md R88, R89). -/
def SourceLine.assemble (l : SourceLine) : Option Word :=
  if l.wellFormed then some (BitVec.ofNat 16 l.bits) else none

/-- The instruction a source line names: none if an operand is out of range, and none for a data word
(30_encoding.md R88). -/
def SourceLine.instr? (l : SourceLine) : Option Instr :=
  if l.wellFormed then
    match l with
    | .load r a => some (.load (BitVec.ofNat 3 r) (BitVec.ofNat 5 a))
    | .store a r => some (.store (BitVec.ofNat 3 r) (BitVec.ofNat 5 a))
    | .add d s t => some (.add (BitVec.ofNat 3 s) (BitVec.ofNat 3 t) (BitVec.ofNat 2 d))
    | .sub d s t => some (.sub (BitVec.ofNat 3 s) (BitVec.ofNat 3 t) (BitVec.ofNat 2 d))
    | .and d s t => some (.and (BitVec.ofNat 3 s) (BitVec.ofNat 3 t) (BitVec.ofNat 2 d))
    | .or d s t => some (.or (BitVec.ofNat 3 s) (BitVec.ofNat 3 t) (BitVec.ofNat 2 d))
    | .jmp n => some (.jmp (BitVec.ofNat 8 n))
    | .halt => some .halt
    | .word _ => none
  else none

/-- The instruction word whose low `nbits` bits are those of `w` and whose other bits are zero; bit 0 is
the least significant. Every instruction is one word (30_encoding.md R70). -/
def tableWord (nbits w : Nat) : Word := BitVec.ofNat 16 (w % 2 ^ nbits)

/-- What the decoder reads from an instruction of `nbits` bits whose bits are `w`: none where they do
not fit in one word, since no instruction spans two (30_encoding.md R70). -/
def decodeTableWord (nbits w : Nat) : Option Instr :=
  if nbits ≤ 16 then some (decode (tableWord nbits w)) else none

end Sys2Proof
end

