-- ==== Sys2Proof/Machine/Trace.lean ====
section
/-! DEFINITION. The trace record of a step (10_state.md R38, 40_sequencer.md R109) and its emission at the
end of the step (R100). What a record holds is written here from each instruction's own rule, apart from
the instruction's effect on the state. -/

namespace Sys2Proof.Machine

/-- The part of a record that an instruction's rule sets: `kind`, `reads`, `writes` and `result`. -/
structure TraceEffect where
  kind : TraceKind
  reads : List TraceRead
  writes : List TraceWrite
  result : Option Word
  deriving DecidableEq, Repr

/-- LOAD's part of the record, from the state before the step (41_load_store.md R120). -/
def loadTrace (reg : BitVec 3) (addr : BitVec 5) (s : State) : TraceEffect :=
  let v := s.memRead (dataAddress addr)
  { kind := .load
    reads := [.mem (dataAddress addr) v]
    writes := [.reg reg v, .pc (nextPc s.pc)]
    result := some v }

/-- STORE's part of the record (41_load_store.md R121). -/
def storeTrace (reg : BitVec 3) (addr : BitVec 5) (s : State) : TraceEffect :=
  let v := s.reg reg
  { kind := .store
    reads := [.reg reg v]
    writes := [.mem (dataAddress addr) v, .pc (nextPc s.pc)]
    result := some v }

/-- An ALU instruction's part of the record (42_alu.md R135). -/
def aluTrace (kind : TraceKind) (op : OpcodeBits) (reg1 reg2 : BitVec 3) (dest : BitVec 2) (s : State) :
    TraceEffect :=
  let v := alu op (s.reg reg1) (s.reg reg2)
  { kind := kind
    reads := [.reg reg1 (s.reg reg1), .reg reg2 (s.reg reg2)]
    writes := [.reg (destRegister dest) v, .pc (nextPc s.pc)]
    result := some v }

/-- JMP's part of the record (43_control.md R150). -/
def jmpTrace (target : BitVec 8) : TraceEffect :=
  { kind := .jmp, reads := [], writes := [.pc (jumpTarget target)], result := none }

/-- HALT's part of the record (43_control.md R151). -/
def haltTrace (s : State) : TraceEffect :=
  { kind := .halt, reads := [], writes := [.running false, .pc (nextPc s.pc)], result := none }

/-- An undefined opcode's part of the record (43_control.md R155): the kind marks the error. -/
def undefinedTrace : TraceEffect :=
  { kind := .unknownOpcode, reads := [], writes := [.running false], result := none }

/-- The part of the record each instruction sets, from the state before the step. -/
def traceEffect (i : Instr) (s : State) : TraceEffect :=
  match i with
  | .load reg addr => loadTrace reg addr s
  | .add reg1 reg2 dest => aluTrace .add 0x2#4 reg1 reg2 dest s
  | .sub reg1 reg2 dest => aluTrace .sub 0x3#4 reg1 reg2 dest s
  | .store reg addr => storeTrace reg addr s
  | .and reg1 reg2 dest => aluTrace .and 0x5#4 reg1 reg2 dest s
  | .or reg1 reg2 dest => aluTrace .or 0x6#4 reg1 reg2 dest s
  | .jmp target => jmpTrace target
  | .halt => haltTrace s
  | .undefined0x0 => undefinedTrace
  | .undefined0x8 => undefinedTrace
  | .undefined0x9 => undefinedTrace
  | .undefined0xA => undefinedTrace
  | .undefined0xB => undefinedTrace
  | .undefined0xC => undefinedTrace
  | .undefined0xD => undefinedTrace
  | .undefined0xE => undefinedTrace

/-- The record of the step that fetched `w` in the state `s` (10_state.md R38). -/
def traceRecord (w : Word) (s : State) : TraceRecord :=
  let e := traceEffect (decode w) s
  { pcFetch := fetchAddress s.pc
    word := w
    opcode := opcodeField w
    kind := e.kind
    reads := e.reads
    writes := e.writes
    result := e.result }

/-- The end of a step (40_sequencer.md R100, R109): a step that executed an instruction emits its one
record; any other outcome stands as it is. -/
def retire (w : Word) (s : State) (o : Host.Outcome State Fault Refusal) :
    Host.Outcome State Fault Refusal :=
  match o with
  | .next t => .next (t.emit (traceRecord w s))
  | .fault r => .fault r
  | .refused r => .refused r

end Sys2Proof.Machine
end

