-- ==== Sys2Proof/Machine/Step.lean ====
section
/-! DEFINITION. One step: fetch, decode, execute, emit the trace record (40_sequencer.md R100). -/

namespace Sys2Proof.Machine

/-- `step()` (40_sequencer.md R100). -/
def step (s : State) : Host.Outcome State Fault Refusal :=
  match fetch s with
  | .next w => retire w s (exec (decode w) s)
  | .fault r => .fault r
  | .refused r => .refused r

/-- `s` with the instruction of `nbits` bits whose bits are `w` stored where `step` fetches next, so that
the very next step runs it (log 5). -/
def State.withFetchWord (s : State) (nbits w : Nat) : State := s.placeWord (tableWord nbits w)

end Sys2Proof.Machine
end

