-- ==== Sys2Proof/Machine/Loader.lean ====
section
/-! DEFINITION. The start of a run from its three launch parameters (70_reset_and_hazards.md R190), which
the loader gives before the first step (10_state.md R39). -/

namespace Sys2Proof.Machine

/-- The memory that holds the given words from an address on. -/
def Memory.ofWords : Nat → List Word → Memory
  | _, [] => []
  | a, w :: rest =>
    if w = Config.unlistedWord then Memory.ofWords (a + 1) rest
    else (a, w) :: Memory.ofWords (a + 1) rest

/-- The memory that holds a whole 256-word image (10_state.md R39, R32). -/
def Memory.ofImage (image : Vector Word 256) : Memory := Memory.ofWords 0 image.toList

/-- `start(mem_init, reg_init, pc_init)` (70_reset_and_hazards.md R190). -/
def State.start (memInit : Vector Word 256) (regInit : Vector Word 8) (pcInit : Address) : State :=
  { mem := Memory.ofImage memInit
    regs := regInit
    pc := pcInit.setWidth 9
    running := true
    trace := [] }

end Sys2Proof.Machine
end

