-- ==== Sys2Proof/Safety.lean ====
section
/-! DEFINITION. The terms that claims about the machine use: the invariant, what a run is and how it ends,
what a trace record says of the state. -/

namespace Sys2Proof.Machine

/-- The engine can fetch: RUNNING, and `pc` is a valid fetch address (10_state.md R24, R37). -/
abbrev State.canFetch (s : State) : Prop := s.running = true ∧ s.pc.toNat ≤ 255

/-- The word at the program counter. -/
def State.nextWord (s : State) : Word := s.memRead (fetchAddress s.pc)

/-- The opcode values with no instruction (30_encoding.md R82). -/
def undefinedOpcodes : List OpcodeBits := [0x0#4, 0x8#4, 0x9#4, 0xA#4, 0xB#4, 0xC#4, 0xD#4, 0xE#4]

/-- No word of memory differs. -/
def State.keepsMemory (s t : State) : Prop := ∀ a : Address, t.memRead a = s.memRead a

/-- No word of memory but the one at `b` differs. -/
def State.keepsMemoryBut (s t : State) (b : Address) : Prop := ∀ a, a ≠ b → t.memRead a = s.memRead a

/-- No register differs. -/
def State.keepsRegs (s t : State) : Prop := ∀ q : RegIndex, t.reg q = s.reg q

/-- No register but `r` differs. -/
def State.keepsRegsBut (s t : State) (r : RegIndex) : Prop := ∀ q, q ≠ r → t.reg q = s.reg q

/-- A record of a step that stopped the engine: HALT or an undefined opcode (10_state.md R33). -/
def TraceKind.halts : TraceKind → Bool
  | .halt => true
  | .unknownOpcode => true
  | _ => false

/-- The engine runs exactly while no record halts, and only the last record may (10_state.md R33, R34,
40_sequencer.md R110). -/
abbrev State.haltTraced (s : State) : Prop :=
  s.running = s.trace.all (fun r => !r.kind.halts) ∧
    s.trace.dropLast.all (fun r => !r.kind.halts) = true

/-- The invariant: memory keeps its canonical form, `pc` is at most 256 (10_state.md R26), and the trace
tells whether the engine has halted (40_sequencer.md R110). -/
abbrev State.Inv (s : State) : Prop := s.mem.wf ∧ s.pc.toNat ≤ 256 ∧ s.haltTraced

/-- What a run of the driving loop comes to (40_sequencer.md R106). Running out of fuel is no end of the
core's (10_state.md R40). -/
inductive RunEnd where
  | halted (s : State)
  | modelFault (r : Fault)
  | refused (r : Refusal)
  | outOfFuel (s : State)
  deriving DecidableEq, Repr

/-- The driving loop under external fuel (40_sequencer.md R105): it asks for a step only while `running`
is true. -/
def drive : Nat → State → RunEnd
  | 0, s => if s.running then .outOfFuel s else .halted s
  | fuel + 1, s =>
    if s.running then
      match step s with
      | .next t => drive fuel t
      | .fault r => .modelFault r
      | .refused r => .refused r
    else .halted s

/-- The effect on the state of one entry of a record's `writes`. -/
def TraceWrite.apply (s : State) : TraceWrite → State
  | .reg r v => s.setReg r v
  | .mem a v => s.memWrite a v
  | .pc t => s.setPc t
  | .running b => { s with running := b }

/-- One entry of a record's `reads` agrees with a state. -/
abbrev TraceRead.agrees (s : State) : TraceRead → Prop
  | .reg r v => s.reg r = v
  | .mem a v => s.memRead a = v

/-- The state that a record's `writes` make of `s`, in their order. -/
def TraceRecord.replay (s : State) (r : TraceRecord) : State := r.writes.foldl TraceWrite.apply s

/-- The 16-bit value that one entry of a record's `writes` put into a register or a memory word. -/
def TraceWrite.value? : TraceWrite → Option Word
  | .reg _ v => some v
  | .mem _ v => some v
  | .pc _ => none
  | .running _ => none

/-- The word at `a` after one write, if it was `v` before. -/
def TraceWrite.wordAt (a : Address) (v : Word) : TraceWrite → Word
  | .mem b x => if b = a then x else v
  | _ => v

/-- The most recent write to `a` that a trace tells of, or `v` if it tells of none (20_memory.md R60). -/
def lastWrite (a : Address) (v : Word) (trace : List TraceRecord) : Word :=
  trace.foldl (fun v r => r.writes.foldl (TraceWrite.wordAt a) v) v

/-- Two states with the same architectural state (10_state.md R20); the trace may differ. -/
def State.sameMachine (s t : State) : Prop :=
  s.mem = t.mem ∧ s.regs = t.regs ∧ s.pc = t.pc ∧ s.running = t.running

end Sys2Proof.Machine
end

