-- ==== Sys2Proof/Certificates/Slice0/Obligations.lean ====
section
/-! DEFINITION. The statements for the provers. Each docstring names the rules of spec/ that the statement
formalises. `w.extractLsb' lo len` is the spec's `w[lo+len-1:lo]`. -/

open Sys2Proof Sys2Proof.Machine

/-! ### Encoding -/

/-- 30_encoding.md section 6 (R89 is marked derived by the spec): decoding the encoder's word gives the instruction back, for every instruction and every
operand value, and the word is canonical (R85). The word of an undefined opcode, for which R89 has no
line, is the model's choice (log 15). -/
def Obligations.DecodeOfEncodeIsTheInstruction : Prop :=
  ∀ i : Instr, decode (encode i) = i ∧ (encode i).toNat < 4096

/-- The other direction: encoding what a word decodes to gives the word with its ignored bits cleared.
That these are bits 15 to 12 is derived from R89 and R72 (the spec's own decision D6, log 9), and that a
HALT's operand is among them from R89 and R77. That an undefined opcode encodes with its operand bits
cleared is the model's own choice (log 15): R89 has no line for an undefined opcode. -/
def Obligations.EncodeOfDecodeClearsIgnoredBits : Prop :=
  ∀ w : Word, encode (decode w) =
    if w.extractLsb' 8 4 = 0xF#4 ∨ w.extractLsb' 8 4 ∈ undefinedOpcodes then w &&& 0x0F00#16
    else w &&& 0x0FFF#16

/-- R72, which rests on the spec's own decision D6 (log 9): bits 15 to 12 are an input to no output of the
decoder and change no execution. -/
def Obligations.DecoderIgnoresBits15To12 : Prop :=
  ∀ v w : Word, v.extractLsb' 0 12 = w.extractLsb' 0 12 →
    decodeFields v = decodeFields w ∧ decode v = decode w ∧
    ∀ s : State, exec (decode v) s = exec (decode w) s

/-- R71 and R74: the opcode, the operand and the six sub-fields, as numbers. -/
def Obligations.DecoderFieldsAreTheWordsBits : Prop :=
  ∀ w : Word,
    (decodeFields w).opcode.toNat = w.toNat / 256 % 16 ∧
    (decodeFields w).operand.toNat = w.toNat % 256 ∧
    (decodeFields w).reg.toNat = w.toNat % 256 / 32 ∧
    (decodeFields w).addr.toNat = w.toNat % 32 ∧
    (decodeFields w).reg1.toNat = w.toNat % 256 / 32 ∧
    (decodeFields w).reg2.toNat = w.toNat % 32 / 4 ∧
    (decodeFields w).dest.toNat = w.toNat % 4 ∧
    (decodeFields w).target.toNat = w.toNat % 256

/-- R78: the opcode alone selects the instruction, each of the 16 values, with the operands of its format
(R75 to R77). -/
def Obligations.OpcodeSelectsTheInstruction : Prop :=
  ∀ w : Word,
    let r := w.extractLsb' 5 3
    let a := w.extractLsb' 0 5
    let r2 := w.extractLsb' 2 3
    let d := w.extractLsb' 0 2
    (w.extractLsb' 8 4 = 0x0#4 → decode w = .undefined0x0) ∧
    (w.extractLsb' 8 4 = 0x1#4 → decode w = .load r a) ∧
    (w.extractLsb' 8 4 = 0x2#4 → decode w = .add r r2 d) ∧
    (w.extractLsb' 8 4 = 0x3#4 → decode w = .sub r r2 d) ∧
    (w.extractLsb' 8 4 = 0x4#4 → decode w = .store r a) ∧
    (w.extractLsb' 8 4 = 0x5#4 → decode w = .and r r2 d) ∧
    (w.extractLsb' 8 4 = 0x6#4 → decode w = .or r r2 d) ∧
    (w.extractLsb' 8 4 = 0x7#4 → decode w = .jmp (w.extractLsb' 0 8)) ∧
    (w.extractLsb' 8 4 = 0x8#4 → decode w = .undefined0x8) ∧
    (w.extractLsb' 8 4 = 0x9#4 → decode w = .undefined0x9) ∧
    (w.extractLsb' 8 4 = 0xA#4 → decode w = .undefined0xA) ∧
    (w.extractLsb' 8 4 = 0xB#4 → decode w = .undefined0xB) ∧
    (w.extractLsb' 8 4 = 0xC#4 → decode w = .undefined0xC) ∧
    (w.extractLsb' 8 4 = 0xD#4 → decode w = .undefined0xD) ∧
    (w.extractLsb' 8 4 = 0xE#4 → decode w = .undefined0xE) ∧
    (w.extractLsb' 8 4 = 0xF#4 → decode w = .halt)

/-- R79, which the spec marks derived: a word decodes to the instruction whose opcode its bits under the mask 0x0F00 match, and of the
16 rows of the opcode table it selects exactly the row of that instruction. -/
def Obligations.MaskAndMatchSelectExactlyOneRow : Prop :=
  ∀ w : Word,
    (∀ i : Instr, (decode w).opcode = i.opcode ↔ w &&& 0x0F00#16 = i.opcode.setWidth 16 <<< 8) ∧
    (opcodeTable.filter (fun row => row.selects w)).map OpcodeRow.mnemonic = [(decode w).mnemonic]

/-- Section L2.1 of 95_test_vectors.md: words written out from the spec's encodings. -/
def Obligations.SampleWordsDecodeAsTheSpecSays : Prop :=
  decode 0x01FF#16 = .load 7#3 31#5 ∧ decode 0x04E0#16 = .store 7#3 0#5 ∧
  decode 0x0206#16 = .add 0#3 1#3 2#2 ∧ decode 0x0394#16 = .sub 4#3 5#3 0#2 ∧
  decode 0x0519#16 = .and 0#3 6#3 1#2 ∧ decode 0x063F#16 = .or 1#3 7#3 3#2 ∧
  decode 0x5721#16 = .jmp 33#8 ∧ decode 0xFFFF#16 = .halt ∧ decode 0xABCD#16 = .undefined0xB

/-- R88 and R89, the spec's own written form (decision D13): the word of each written form, and no word for an operand out of range; `ADD R4 = ...`
cannot be written. -/
def Obligations.WrittenFormsAssembleOrAreRefused : Prop :=
  (∀ r a, (SourceLine.load r a).assemble =
    if r ≤ 7 ∧ a ≤ 31 then some (BitVec.ofNat 16 (0x0100 ||| (r <<< 5) ||| a)) else none) ∧
  (∀ a r, (SourceLine.store a r).assemble =
    if r ≤ 7 ∧ a ≤ 31 then some (BitVec.ofNat 16 (0x0400 ||| (r <<< 5) ||| a)) else none) ∧
  (∀ d s t, (SourceLine.add d s t).assemble =
    if d ≤ 3 ∧ s ≤ 7 ∧ t ≤ 7 then some (BitVec.ofNat 16 (0x0200 ||| (s <<< 5) ||| (t <<< 2) ||| d))
    else none) ∧
  (∀ d s t, (SourceLine.sub d s t).assemble =
    if d ≤ 3 ∧ s ≤ 7 ∧ t ≤ 7 then some (BitVec.ofNat 16 (0x0300 ||| (s <<< 5) ||| (t <<< 2) ||| d))
    else none) ∧
  (∀ d s t, (SourceLine.and d s t).assemble =
    if d ≤ 3 ∧ s ≤ 7 ∧ t ≤ 7 then some (BitVec.ofNat 16 (0x0500 ||| (s <<< 5) ||| (t <<< 2) ||| d))
    else none) ∧
  (∀ d s t, (SourceLine.or d s t).assemble =
    if d ≤ 3 ∧ s ≤ 7 ∧ t ≤ 7 then some (BitVec.ofNat 16 (0x0600 ||| (s <<< 5) ||| (t <<< 2) ||| d))
    else none) ∧
  (∀ n, (SourceLine.jmp n).assemble = if n ≤ 255 then some (BitVec.ofNat 16 (0x0700 ||| n)) else none) ∧
  SourceLine.halt.assemble = some 0x0F00#16 ∧
  (∀ v, (SourceLine.word v).assemble = if v ≤ 65535 then some (BitVec.ofNat 16 v) else none)

/-- R88 with R89 (decision D13): a written form that names an instruction assembles to that instruction's word, which
decodes to it. -/
def Obligations.AssembledFormDecodesToItsInstruction : Prop :=
  ∀ (l : SourceLine) (i : Instr), l.instr? = some i →
    ∃ w, l.assemble = some w ∧ w = encode i ∧ decode w = i

/-! ### The instructions

Each statement has two clauses: what the instruction does to every state, with its frame; and the step
that runs it from a word with its opcode, with the whole trace record. -/

/-- R120: LOAD. -/
def Obligations.LoadCopiesAMemoryWordToARegister : Prop :=
  (∀ (r : BitVec 3) (a : BitVec 5) (s : State), ∃ t, exec (.load r a) s = .next t ∧
    t.reg r = s.memRead (a.setWidth 8) ∧ s.keepsRegsBut t r ∧ s.keepsMemory t ∧
    t.pc = s.pc + 1#9 ∧ t.running = s.running ∧ t.trace = s.trace) ∧
  (∀ s : State, s.canFetch → s.nextWord.extractLsb' 8 4 = 0x1#4 →
    let r := s.nextWord.extractLsb' 5 3
    let a : Address := (s.nextWord.extractLsb' 0 5).setWidth 8
    ∃ t, exec (.load r (s.nextWord.extractLsb' 0 5)) s = .next t ∧
      step s = .next (t.emit
        { pcFetch := s.pc.setWidth 8, word := s.nextWord, opcode := 0x1#4, kind := .load
          reads := [.mem a (s.memRead a)], writes := [.reg r (s.memRead a), .pc (s.pc + 1#9)]
          result := some (s.memRead a) }))

/-- R121: STORE. -/
def Obligations.StoreCopiesARegisterToAMemoryWord : Prop :=
  (∀ (r : BitVec 3) (a : BitVec 5) (s : State), ∃ t, exec (.store r a) s = .next t ∧
    t.memRead (dataAddress a) = s.reg r ∧ (dataAddress a).toNat = a.toNat ∧
    s.keepsMemoryBut t (dataAddress a) ∧ s.keepsRegs t ∧
    t.pc = s.pc + 1#9 ∧ t.running = s.running ∧ t.trace = s.trace) ∧
  (∀ s : State, s.canFetch → s.nextWord.extractLsb' 8 4 = 0x4#4 →
    let r := s.nextWord.extractLsb' 5 3
    let a : Address := (s.nextWord.extractLsb' 0 5).setWidth 8
    ∃ t, exec (.store r (s.nextWord.extractLsb' 0 5)) s = .next t ∧
      step s = .next (t.emit
        { pcFetch := s.pc.setWidth 8, word := s.nextWord, opcode := 0x4#4, kind := .store
          reads := [.reg r (s.reg r)], writes := [.mem a (s.reg r), .pc (s.pc + 1#9)]
          result := some (s.reg r) }))

/-- R131: ADD, 16-bit wraparound. -/
def Obligations.AddWritesTheSumModulo65536 : Prop :=
  (∀ (r1 r2 : BitVec 3) (d : BitVec 2) (s : State), ∃ t, exec (.add r1 r2 d) s = .next t ∧
    (t.reg (d.setWidth 3)).toNat = ((s.reg r1).toNat + (s.reg r2).toNat) % 65536 ∧
    s.keepsRegsBut t (d.setWidth 3) ∧ s.keepsMemory t ∧
    t.pc = s.pc + 1#9 ∧ t.running = s.running ∧ t.trace = s.trace) ∧
  (∀ s : State, s.canFetch → s.nextWord.extractLsb' 8 4 = 0x2#4 →
    let r1 := s.nextWord.extractLsb' 5 3
    let r2 := s.nextWord.extractLsb' 2 3
    let d := s.nextWord.extractLsb' 0 2
    ∃ t, exec (.add r1 r2 d) s = .next t ∧
      step s = .next (t.emit
        { pcFetch := s.pc.setWidth 8, word := s.nextWord, opcode := 0x2#4, kind := .add
          reads := [.reg r1 (s.reg r1), .reg r2 (s.reg r2)]
          writes := [.reg (d.setWidth 3) (t.reg (d.setWidth 3)), .pc (s.pc + 1#9)]
          result := some (t.reg (d.setWidth 3)) }))

/-- R132: SUB, `reg1 - reg2` with 16-bit wraparound. -/
def Obligations.SubWritesTheDifferenceModulo65536 : Prop :=
  (∀ (r1 r2 : BitVec 3) (d : BitVec 2) (s : State), ∃ t, exec (.sub r1 r2 d) s = .next t ∧
    ((t.reg (d.setWidth 3)).toNat : Int) = ((s.reg r1).toNat - (s.reg r2).toNat : Int) % 65536 ∧
    s.keepsRegsBut t (d.setWidth 3) ∧ s.keepsMemory t ∧
    t.pc = s.pc + 1#9 ∧ t.running = s.running ∧ t.trace = s.trace) ∧
  (∀ s : State, s.canFetch → s.nextWord.extractLsb' 8 4 = 0x3#4 →
    let r1 := s.nextWord.extractLsb' 5 3
    let r2 := s.nextWord.extractLsb' 2 3
    let d := s.nextWord.extractLsb' 0 2
    ∃ t, exec (.sub r1 r2 d) s = .next t ∧
      step s = .next (t.emit
        { pcFetch := s.pc.setWidth 8, word := s.nextWord, opcode := 0x3#4, kind := .sub
          reads := [.reg r1 (s.reg r1), .reg r2 (s.reg r2)]
          writes := [.reg (d.setWidth 3) (t.reg (d.setWidth 3)), .pc (s.pc + 1#9)]
          result := some (t.reg (d.setWidth 3)) }))

/-- R133: bitwise AND. -/
def Obligations.AndWritesTheBitwiseAnd : Prop :=
  (∀ (r1 r2 : BitVec 3) (d : BitVec 2) (s : State), ∃ t, exec (.and r1 r2 d) s = .next t ∧
    (∀ k, (t.reg (d.setWidth 3)).getLsbD k = ((s.reg r1).getLsbD k && (s.reg r2).getLsbD k)) ∧
    s.keepsRegsBut t (d.setWidth 3) ∧ s.keepsMemory t ∧
    t.pc = s.pc + 1#9 ∧ t.running = s.running ∧ t.trace = s.trace) ∧
  (∀ s : State, s.canFetch → s.nextWord.extractLsb' 8 4 = 0x5#4 →
    let r1 := s.nextWord.extractLsb' 5 3
    let r2 := s.nextWord.extractLsb' 2 3
    let d := s.nextWord.extractLsb' 0 2
    ∃ t, exec (.and r1 r2 d) s = .next t ∧
      step s = .next (t.emit
        { pcFetch := s.pc.setWidth 8, word := s.nextWord, opcode := 0x5#4, kind := .and
          reads := [.reg r1 (s.reg r1), .reg r2 (s.reg r2)]
          writes := [.reg (d.setWidth 3) (t.reg (d.setWidth 3)), .pc (s.pc + 1#9)]
          result := some (t.reg (d.setWidth 3)) }))

/-- R134: bitwise OR. -/
def Obligations.OrWritesTheBitwiseOr : Prop :=
  (∀ (r1 r2 : BitVec 3) (d : BitVec 2) (s : State), ∃ t, exec (.or r1 r2 d) s = .next t ∧
    (∀ k, (t.reg (d.setWidth 3)).getLsbD k = ((s.reg r1).getLsbD k || (s.reg r2).getLsbD k)) ∧
    s.keepsRegsBut t (d.setWidth 3) ∧ s.keepsMemory t ∧
    t.pc = s.pc + 1#9 ∧ t.running = s.running ∧ t.trace = s.trace) ∧
  (∀ s : State, s.canFetch → s.nextWord.extractLsb' 8 4 = 0x6#4 →
    let r1 := s.nextWord.extractLsb' 5 3
    let r2 := s.nextWord.extractLsb' 2 3
    let d := s.nextWord.extractLsb' 0 2
    ∃ t, exec (.or r1 r2 d) s = .next t ∧
      step s = .next (t.emit
        { pcFetch := s.pc.setWidth 8, word := s.nextWord, opcode := 0x6#4, kind := .or
          reads := [.reg r1 (s.reg r1), .reg r2 (s.reg r2)]
          writes := [.reg (d.setWidth 3) (t.reg (d.setWidth 3)), .pc (s.pc + 1#9)]
          result := some (t.reg (d.setWidth 3)) }))

/-- R150: JMP goes to the absolute target, which is not incremented and is a valid fetch address. -/
def Obligations.JmpGoesToItsAbsoluteTarget : Prop :=
  (∀ (n : BitVec 8) (s : State), ∃ t, exec (.jmp n) s = .next t ∧
    t.pc.toNat = n.toNat ∧ fetchAddress t.pc = n ∧
    s.keepsRegs t ∧ s.keepsMemory t ∧ t.running = s.running ∧ t.trace = s.trace) ∧
  (∀ s : State, s.canFetch → s.nextWord.extractLsb' 8 4 = 0x7#4 →
    let n := s.nextWord.extractLsb' 0 8
    ∃ t, exec (.jmp n) s = .next t ∧
      step s = .next (t.emit
        { pcFetch := s.pc.setWidth 8, word := s.nextWord, opcode := 0x7#4, kind := .jmp
          reads := [], writes := [.pc (n.setWidth 9)], result := none }))

/-- R151: HALT clears `running` and still advances `pc`, to 256 from 255; it is final (R34). -/
def Obligations.HaltClearsRunningAndAdvances : Prop :=
  (∀ s : State, ∃ t, exec .halt s = .next t ∧ t.running = false ∧ t.pc = s.pc + 1#9 ∧
    s.keepsRegs t ∧ s.keepsMemory t ∧ t.trace = s.trace ∧ ∀ u, step t ≠ .next u) ∧
  (∀ s : State, s.canFetch → s.nextWord.extractLsb' 8 4 = 0xF#4 →
    ∃ t, exec .halt s = .next t ∧ t.pc.toNat = s.pc.toNat + 1 ∧
      step s = .next (t.emit
        { pcFetch := s.pc.setWidth 8, word := s.nextWord, opcode := 0xF#4, kind := .halt
          reads := [], writes := [.running false, .pc (s.pc + 1#9)], result := none }))

/-- R155: each of the eight undefined opcodes clears `running` and changes nothing else, `pc` included;
the record's kind marks the error. -/
def Obligations.UndefinedOpcodesOnlyClearRunning : Prop :=
  (∀ (i : Instr) (s : State),
    i ∈ [Instr.undefined0x0, .undefined0x8, .undefined0x9, .undefined0xA, .undefined0xB, .undefined0xC,
      .undefined0xD, .undefined0xE] →
    ∃ t, exec i s = .next t ∧ t.running = false ∧ t.pc = s.pc ∧ s.keepsRegs t ∧ s.keepsMemory t ∧
      t.trace = s.trace) ∧
  (∀ s : State, s.canFetch → s.nextWord.extractLsb' 8 4 ∈ undefinedOpcodes →
    step s = .next (({ s with running := false } : State).emit
      { pcFetch := s.pc.setWidth 8, word := s.nextWord, opcode := s.nextWord.extractLsb' 8 4
        kind := .unknownOpcode, reads := [], writes := [.running false], result := none }))

/-- R130: the ALU, its default zero included. -/
def Obligations.AluComputesItsFourOperations : Prop :=
  ∀ (op : OpcodeBits) (a b : Word),
    (op = 0x2#4 → (alu op a b).toNat = (a.toNat + b.toNat) % 65536) ∧
    (op = 0x3#4 → (alu op a b).toNat = (a.toNat + (65536 - b.toNat)) % 65536) ∧
    (op = 0x5#4 → ∀ k, (alu op a b).getLsbD k = (a.getLsbD k && b.getLsbD k)) ∧
    (op = 0x6#4 → ∀ k, (alu op a b).getLsbD k = (a.getLsbD k || b.getLsbD k)) ∧
    (op ≠ 0x2#4 ∧ op ≠ 0x3#4 ∧ op ≠ 0x5#4 ∧ op ≠ 0x6#4 → alu op a b = 0x0000#16)

/-- R90, which the spec marks derived: forms that change only `pc`, to `pc + 1`. -/
def Obligations.NoOperationFormsChangeOnlyThePc : Prop :=
  ∀ s : State,
    (∀ d : BitVec 2, exec (.or (d.setWidth 3) (d.setWidth 3) d) s = .next { s with pc := s.pc + 1#9 }) ∧
    (∀ d : BitVec 2, exec (.and (d.setWidth 3) (d.setWidth 3) d) s = .next { s with pc := s.pc + 1#9 }) ∧
    (∀ n : BitVec 8, s.pc.toNat + 1 = n.toNat → exec (.jmp n) s = .next { s with pc := s.pc + 1#9 })

/-! ### The step -/

/-- R100, R103: from RUNNING with `pc` in 0 to 255 a step is the meaning of the instruction that the word
at `pc` decodes to, and emits that word's trace record after it. The range check rests on the spec's decision D2 (log 7), the
record's place in the state is the model's choice (log 8). -/
def Obligations.StepRunsTheDecodedInstruction : Prop :=
  ∀ s : State, s.running = true → s.pc.toNat ≤ 255 →
    ∃ t, exec (decode (s.memRead (fetchAddress s.pc))) s = .next t ∧
      step s = .next (t.emit (traceRecord (s.memRead (fetchAddress s.pc)) s)) ∧
      (fetchAddress s.pc).toNat = s.pc.toNat

/-- R37, R41, with the spec's decisions D2 and D7 (logs 7, 6): a step is taken exactly in RUNNING with `pc` in 0 to 255; no word at `pc` keeps it from a
next state. -/
def Obligations.StepIsTakenExactlyWhenItCanFetch : Prop :=
  ∀ s : State, (∃ t, step s = .next t) ↔ s.running = true ∧ s.pc.toNat ≤ 255

/-- R34, which rests on the spec's decision D7 (log 6): HALTED has no step, and the driving loop under any fuel leaves the state as it is. -/
def Obligations.HaltedHasNoStep : Prop :=
  ∀ s : State, s.running = false → (∀ t, step s ≠ .next t) ∧ ∀ fuel, drive fuel s = .halted s

/-- R176, which rests on the spec's decision D2 (log 7): with `running` true and `pc` over 255 the step faults and names `pc`; in a state that meets the
invariant the fault has `pc` 256; and a step leads to a state that faults exactly when it ran LOAD, STORE,
ADD, SUB, AND or OR at address 255. -/
def Obligations.PcOutOfRangeFaultsAndWhereItComesFrom : Prop :=
  (∀ s : State, s.running = true → 255 < s.pc.toNat → step s = .fault (.pcOutOfRange s.pc)) ∧
  (∀ (s : State) (r : Fault), s.Inv → step s = .fault r → s.pc = 256#9 ∧ r = .pcOutOfRange 256#9) ∧
  (∀ s t : State, step s = .next t →
    ((∃ r, step t = .fault r) ↔
      s.pc = 255#9 ∧ 1 ≤ (s.nextWord.extractLsb' 8 4).toNat ∧ (s.nextWord.extractLsb' 8 4).toNat ≤ 6))

/-- R26, which rests on the spec's decisions D1 and D2 (log 7): the pc does not wrap. From 255 every instruction but JMP and the undefined opcodes gives 256;
256 in RUNNING faults; a HALT at 255 leaves 256 and is a legal end; no step gives more than 256. -/
def Obligations.PcDoesNotWrap : Prop :=
  ∀ s t : State, step s = .next t →
    t.pc.toNat ≤ 256 ∧
    (s.pc = 255#9 → s.nextWord.extractLsb' 8 4 ≠ 0x7#4 → s.nextWord.extractLsb' 8 4 ∉ undefinedOpcodes →
      t.pc = 256#9) ∧
    (t.pc = 256#9 → t.running = true → step t = .fault (.pcOutOfRange 256#9)) ∧
    (s.pc = 255#9 → s.nextWord.extractLsb' 8 4 = 0xF#4 → ∀ fuel, drive fuel t = .halted t)

/-- R25: the new pc of every step, per instruction. -/
def Obligations.NewPcOfEachInstruction : Prop :=
  ∀ s t : State, step s = .next t →
    let op := s.nextWord.extractLsb' 8 4
    t.pc.toNat =
      if op = 0x7#4 then (s.nextWord.extractLsb' 0 8).toNat
      else if op ∈ undefinedOpcodes then s.pc.toNat
      else s.pc.toNat + 1

/-- R108, which the spec marks derived: the frame summary, row by row. -/
def Obligations.FrameOfEachInstruction : Prop :=
  ∀ s t : State, step s = .next t →
    let op := s.nextWord.extractLsb' 8 4
    let r := s.nextWord.extractLsb' 5 3
    let a : Address := (s.nextWord.extractLsb' 0 5).setWidth 8
    let d : RegIndex := (s.nextWord.extractLsb' 0 2).setWidth 3
    (op = 0x1#4 → s.keepsRegsBut t r ∧ s.keepsMemory t ∧ t.pc.toNat = s.pc.toNat + 1 ∧
      t.running = s.running) ∧
    (op = 0x4#4 → s.keepsRegs t ∧ s.keepsMemoryBut t a ∧ t.pc.toNat = s.pc.toNat + 1 ∧
      t.running = s.running) ∧
    (op = 0x2#4 ∨ op = 0x3#4 ∨ op = 0x5#4 ∨ op = 0x6#4 → s.keepsRegsBut t d ∧ d.toNat ≤ 3 ∧
      s.keepsMemory t ∧ t.pc.toNat = s.pc.toNat + 1 ∧ t.running = s.running) ∧
    (op = 0x7#4 → s.keepsRegs t ∧ s.keepsMemory t ∧ t.pc.toNat = (s.nextWord.extractLsb' 0 8).toNat ∧
      t.running = s.running) ∧
    (op = 0xF#4 → s.keepsRegs t ∧ s.keepsMemory t ∧ t.pc.toNat = s.pc.toNat + 1 ∧ t.running = false) ∧
    (op ∈ undefinedOpcodes → s.keepsRegs t ∧ s.keepsMemory t ∧ t.pc = s.pc ∧ t.running = false)

/-- R81, with the sentence of R23 that the spec marks derived: no ALU encoding names R4 to R7, and a step that changes one of R4 to R7 ran a LOAD of
that register. -/
def Obligations.OnlyLoadWritesR4ToR7 : Prop :=
  (∀ d : BitVec 2, (destRegister d).toNat ≤ 3) ∧
  (∀ (s t : State) (q : RegIndex), step s = .next t → 4 ≤ q.toNat → t.reg q ≠ s.reg q →
    s.nextWord.extractLsb' 8 4 = 0x1#4 ∧ s.nextWord.extractLsb' 5 3 = q)

/-- R27 and R33: no step sets `running`, a step leaves RUNNING exactly when it ran HALT or an undefined
opcode, and HALTED is left by nothing. -/
def Obligations.HaltStateMachine : Prop :=
  (∀ s t : State, step s = .next t →
    s.haltState = .running ∧
    (t.haltState = .halted ↔
      s.nextWord.extractLsb' 8 4 = 0xF#4 ∨ s.nextWord.extractLsb' 8 4 ∈ undefinedOpcodes)) ∧
  (∀ s : State, (s.haltState = .running ↔ s.running = true) ∧
    (s.haltState = .halted → ∀ t, step s ≠ .next t)) ∧
  (∀ m r p, (State.start m r p).running = true) ∧ State.reset.running = true

/-! ### Memory -/

/-- R57, which the spec marks derived: a read after a write gives the word written; a write changes only that cell, and nothing but
memory. -/
def Obligations.MemoryIsPlainStorage : Prop :=
  ∀ (s : State) (a b : Address) (v : Word),
    (s.memWrite a v).memRead b = (if b = a then v else s.memRead b) ∧
    s.keepsRegs (s.memWrite a v) ∧ (s.memWrite a v).pc = s.pc ∧
    (s.memWrite a v).running = s.running ∧ (s.memWrite a v).trace = s.trace

/-- The model's own form of memory (log 1): two memories in canonical form that read alike are the same
list. -/
def Obligations.CanonicalMemoriesThatReadAlikeAreEqual : Prop :=
  ∀ m n : Memory, m.wf → n.wf → (∀ a : Address, m.read a.toNat = n.read a.toNat) → m = n

/-- R52, whose sentence on addresses 32 to 255 the spec marks derived: no run changes a word at an address from 32 to 255, since no data access reaches it. -/
def Obligations.NoRunWritesAbove31 : Prop :=
  ∀ (n : Nat) (s t : State), Sys2Proof.core.run n s = .next t →
    ∀ a : Address, 32 ≤ a.toNat → t.memRead a = s.memRead a

/-- R63, which the spec marks derived: a STORE runs the word it was fetched as, and a fetch at the stored address, with no STORE in
between, gives the stored word. -/
def Obligations.StoreIsSeenByALaterFetch : Prop :=
  ∀ s t : State, step s = .next t → s.nextWord.extractLsb' 8 4 = 0x4#4 →
    ∀ (n : Nat) (u : State), Sys2Proof.core.run n t = .next u →
      (∀ r ∈ u.trace.drop t.trace.length, r.kind ≠ .store) →
      u.canFetch → u.pc.toNat = (s.nextWord.extractLsb' 0 5).toNat →
      fetch u = .next (s.reg (s.nextWord.extractLsb' 5 3))

/-- R60, which the spec marks derived, read through the model's trace field (log 8): in every state of a run, a memory word is what the most recent write in the trace put there, and
the loader's word where no write did. -/
def Obligations.MemoryHoldsTheMostRecentWrite : Prop :=
  ∀ (m : Vector Word 256) (r : Vector Word 8) (p : Address) (n : Nat) (t : State),
    Sys2Proof.core.run n (State.start m r p) = .next t →
    ∀ a : Address, t.memRead a = lastWrite a (m[a.toNat]'a.isLt) t.trace

/-- The step lemma behind it, over every state and every image: if each memory word is what the most
recent write in the trace put there, or the image's word where no write did, then a step keeps that so.
R60 is marked derived by the spec, and the trace field is the model's choice (log 8). -/
def Obligations.StepKeepsMemoryAtTheMostRecentWrite : Prop :=
  ∀ (m : Vector Word 256) (s t : State),
    (∀ a : Address, s.memRead a = lastWrite a (m[a.toNat]'a.isLt) s.trace) → step s = .next t →
    ∀ a : Address, t.memRead a = lastWrite a (m[a.toNat]'a.isLt) t.trace

/-! ### Start and invariant -/

/-- R190, which rests on the spec's decisions D3 to D5: the state that `start` makes. -/
def Obligations.StartHoldsTheLaunchParameters : Prop :=
  ∀ (m : Vector Word 256) (r : Vector Word 8) (p : Address),
    (∀ a : Address, (State.start m r p).memRead a = m[a.toNat]'a.isLt) ∧
    (∀ q : RegIndex, (State.start m r p).reg q = r[q.toNat]'q.isLt) ∧
    (State.start m r p).pc.toNat = p.toNat ∧ (State.start m r p).running = true ∧
    (State.start m r p).trace = []

/-- The state after reset: `running` true is the source's (R27, R32); the zero registers, the zero pc and
the zero memory words are the reference values of launch parameters, chosen by the model (logs 2, 3, 4);
and reset is `start` on them (log 5). -/
def Obligations.ResetIsTheReferenceStart : Prop :=
  State.reset.running = true ∧ (∀ q, State.reset.reg q = 0x0000#16) ∧ State.reset.pc = 0#9 ∧
  (∀ a, State.reset.memRead a = 0x0000#16) ∧ State.reset.trace = [] ∧
  State.reset = State.start (Vector.replicate 256 0x0000#16) (Vector.replicate 8 0x0000#16) 0#8

/-- Every step keeps the invariant: memory in canonical form (the model's choice, log 1), `pc` at most 256 (R26), and the engine
RUNNING exactly while no trace record halts, only the last of which may (R33, R110). -/
def Obligations.StepKeepsTheInvariant : Prop :=
  ∀ s t : State, s.Inv → step s = .next t → t.Inv

/-- Reset meets the invariant. -/
def Obligations.ResetMeetsTheInvariant : Prop := State.reset.Inv

/-- Every start of a run meets the invariant, for all launch parameters. -/
def Obligations.EveryStartMeetsTheInvariant : Prop :=
  ∀ (m : Vector Word 256) (r : Vector Word 8) (p : Address), (State.start m r p).Inv

/-! ### Trace and runs -/

/-- R38, R109 (the fields are the spec's decision D9, the trace field is the model's choice, log 8): a step
emits exactly one record; the record's writes, replayed on the state before, give
the architectural state after; its reads hold in the state before; its result is the value written to a
register or memory word. -/
def Obligations.TraceRecordReplaysTheStep : Prop :=
  ∀ s t : State, step s = .next t → ∃ r : TraceRecord,
    t = (r.replay s).emit r ∧ r.pcFetch.toNat = s.pc.toNat ∧ r.word = s.nextWord ∧
    r.opcode = s.nextWord.extractLsb' 8 4 ∧ (∀ x ∈ r.reads, x.agrees s) ∧
    r.result = (r.writes.filterMap TraceWrite.value?).head?

/-- R109, R182, R107: no step reads the trace. Two states that differ at most in their traces step alike
and emit the same record. -/
def Obligations.NoStepReadsTheTrace : Prop :=
  ∀ s u : State, s.sameMachine u →
    (∀ t, step s = .next t → ∃ v r, step u = .next v ∧ t.sameMachine v ∧
      t.trace = s.trace ++ [r] ∧ v.trace = u.trace ++ [r]) ∧
    (∀ r, step s = .fault r → step u = .fault r) ∧
    (∀ r, step s = .refused r → step u = .refused r)

/-- R110, which rests on the spec's decision D16: after a halted run, the kind of the last record tells the cause. -/
def Obligations.LastRecordTellsTheHaltCause : Prop :=
  ∀ (fuel : Nat) (s t : State), s.running = true → drive fuel s = .halted t →
    t.running = false ∧ ∃ older r, t.trace = older ++ [r] ∧
      (r.kind = .halt ∧ r.opcode = 0xF#4 ∨ r.kind = .unknownOpcode ∧ r.opcode ∈ undefinedOpcodes)

/-- R106, R40: a run that ends is halted with `running` false or a PcOutOfRange fault; it is never
refused, and one that is out of fuel is still RUNNING. An end does not change with more fuel. -/
def Obligations.RunEndsHaltedOrFaulted : Prop :=
  ∀ (fuel : Nat) (s : State),
    (∀ t, drive fuel s = .halted t → t.running = false ∧ ∀ more, drive (fuel + more) s = .halted t) ∧
    (∀ f, drive fuel s = .modelFault f →
      (∃ pc, f = .pcOutOfRange pc) ∧ ∀ more, drive (fuel + more) s = .modelFault f) ∧
    (∀ f, drive fuel s ≠ .refused f) ∧
    (∀ t, drive fuel s = .outOfFuel t → t.running = true)

/-- R196: a JMP to its own address runs for ever: any number of steps leaves memory, registers, `pc` and
`running` as they are, with one record a step. -/
def Obligations.JmpToItselfRunsForEver : Prop :=
  ∀ s : State, s.canFetch → s.nextWord.extractLsb' 8 4 = 0x7#4 →
    (s.nextWord.extractLsb' 0 8).toNat = s.pc.toNat →
    ∀ n, ∃ t, Sys2Proof.core.run n s = .next t ∧ t.sameMachine s ∧
      t.trace.length = s.trace.length + n

/-- The interface (log 5): a word placed for the next step is the word that step fetches. -/
def Obligations.PlacedWordIsFetchedNext : Prop :=
  ∀ (s : State) (w : Nat), w < 65536 →
    fetch (s.withFetchWord 16 w) = .next (BitVec.ofNat 16 w) ∧
    decodeTableWord 16 w = some (decode (BitVec.ofNat 16 w)) ∧
    (s.canFetch → (s.withFetchWord 16 w).pc = s.pc ∧ s.keepsRegs (s.withFetchWord 16 w) ∧
      s.keepsMemoryBut (s.withFetchWord 16 w) (fetchAddress s.pc) ∧
      (s.withFetchWord 16 w).trace = s.trace)
end

