-- ==== Sys2Proof/Laws/Decode.lean ====
section
/-! SUPPORT. The decoder's small lemmas: the sub-fields as fields of the word, and what each opcode value
decodes to. -/

namespace Sys2Proof

/-- The 16 opcode values (30_encoding.md R73). -/
theorem opcode_cases (op : OpcodeBits) :
    op = 0x0#4 ∨ op = 0x1#4 ∨ op = 0x2#4 ∨ op = 0x3#4 ∨ op = 0x4#4 ∨ op = 0x5#4 ∨ op = 0x6#4 ∨ op = 0x7#4 ∨
    op = 0x8#4 ∨ op = 0x9#4 ∨ op = 0xA#4 ∨ op = 0xB#4 ∨ op = 0xC#4 ∨ op = 0xD#4 ∨ op = 0xE#4 ∨ op = 0xF#4 := by
  revert op; decide

/-- Operand bit `i` is word bit `i` (30_encoding.md R74). -/
theorem operandField_extract (w : Word) (lo len : Nat) (h : lo + len ≤ 8) :
    (operandField w).extractLsb' lo len = w.extractLsb' lo len := by
  ext i hi
  simp only [operandField, BitVec.getElem_extractLsb', BitVec.getLsbD_extractLsb', Nat.zero_add]
  have : lo + i < 8 := by omega
  simp [this]

@[simp] theorem decodeFields_opcode (w : Word) : (decodeFields w).opcode = w.extractLsb' 8 4 := rfl
@[simp] theorem decodeFields_operand (w : Word) : (decodeFields w).operand = w.extractLsb' 0 8 := rfl
@[simp] theorem decodeFields_target (w : Word) : (decodeFields w).target = w.extractLsb' 0 8 := rfl
@[simp] theorem decodeFields_reg (w : Word) : (decodeFields w).reg = w.extractLsb' 5 3 :=
  operandField_extract w 5 3 (by decide)
@[simp] theorem decodeFields_addr (w : Word) : (decodeFields w).addr = w.extractLsb' 0 5 :=
  operandField_extract w 0 5 (by decide)
@[simp] theorem decodeFields_reg1 (w : Word) : (decodeFields w).reg1 = w.extractLsb' 5 3 :=
  operandField_extract w 5 3 (by decide)
@[simp] theorem decodeFields_reg2 (w : Word) : (decodeFields w).reg2 = w.extractLsb' 2 3 :=
  operandField_extract w 2 3 (by decide)
@[simp] theorem decodeFields_dest (w : Word) : (decodeFields w).dest = w.extractLsb' 0 2 :=
  operandField_extract w 0 2 (by decide)

theorem decode_load {w : Word} (h : w.extractLsb' 8 4 = 0x1#4) :
    decode w = .load (w.extractLsb' 5 3) (w.extractLsb' 0 5) := by
  simp [decode, selectInstr, h]

theorem decode_add {w : Word} (h : w.extractLsb' 8 4 = 0x2#4) :
    decode w = .add (w.extractLsb' 5 3) (w.extractLsb' 2 3) (w.extractLsb' 0 2) := by
  simp [decode, selectInstr, h]

theorem decode_sub {w : Word} (h : w.extractLsb' 8 4 = 0x3#4) :
    decode w = .sub (w.extractLsb' 5 3) (w.extractLsb' 2 3) (w.extractLsb' 0 2) := by
  simp [decode, selectInstr, h]

theorem decode_store {w : Word} (h : w.extractLsb' 8 4 = 0x4#4) :
    decode w = .store (w.extractLsb' 5 3) (w.extractLsb' 0 5) := by
  simp [decode, selectInstr, h]

theorem decode_and {w : Word} (h : w.extractLsb' 8 4 = 0x5#4) :
    decode w = .and (w.extractLsb' 5 3) (w.extractLsb' 2 3) (w.extractLsb' 0 2) := by
  simp [decode, selectInstr, h]

theorem decode_or {w : Word} (h : w.extractLsb' 8 4 = 0x6#4) :
    decode w = .or (w.extractLsb' 5 3) (w.extractLsb' 2 3) (w.extractLsb' 0 2) := by
  simp [decode, selectInstr, h]

theorem decode_jmp {w : Word} (h : w.extractLsb' 8 4 = 0x7#4) : decode w = .jmp (w.extractLsb' 0 8) := by
  simp [decode, selectInstr, h]

theorem decode_halt {w : Word} (h : w.extractLsb' 8 4 = 0xF#4) : decode w = .halt := by
  simp [decode, selectInstr, h]

/-- The undefined opcodes (30_encoding.md R82). -/
theorem decode_undefined {w : Word} :
    (w.extractLsb' 8 4 = 0x0#4 → decode w = .undefined0x0) ∧
    (w.extractLsb' 8 4 = 0x8#4 → decode w = .undefined0x8) ∧
    (w.extractLsb' 8 4 = 0x9#4 → decode w = .undefined0x9) ∧
    (w.extractLsb' 8 4 = 0xA#4 → decode w = .undefined0xA) ∧
    (w.extractLsb' 8 4 = 0xB#4 → decode w = .undefined0xB) ∧
    (w.extractLsb' 8 4 = 0xC#4 → decode w = .undefined0xC) ∧
    (w.extractLsb' 8 4 = 0xD#4 → decode w = .undefined0xD) ∧
    (w.extractLsb' 8 4 = 0xE#4 → decode w = .undefined0xE) := by
  refine ⟨?_, ?_, ?_, ?_, ?_, ?_, ?_, ?_⟩ <;> intro h <;> simp [decode, selectInstr, h]

/-- The opcode alone selects the instruction (30_encoding.md R78). -/
theorem decode_opcode (w : Word) : (decode w).opcode = w.extractLsb' 8 4 := by
  rcases opcode_cases (w.extractLsb' 8 4) with
    h | h | h | h | h | h | h | h | h | h | h | h | h | h | h | h <;>
    simp [decode, selectInstr, Instr.opcode, h]

end Sys2Proof
end

