-- ==== Sys2Proof/Laws/Memory.lean ====
section
/-! SUPPORT. The laws of the memory: read after write, and every operation keeps the canonical form. -/

namespace Sys2Proof.Machine

theorem Memory.read_insert (m : Memory) (a b : Nat) (v : Word) :
    (m.insert a v).read b = if a = b then v else m.read b := by
  induction m with
  | nil => simp [Memory.insert, Memory.read]
  | cons c rest ih =>
    obtain ⟨k, x⟩ := c
    simp only [Memory.insert]
    split
    · simp [Memory.read]
    · split
      · rename_i _ h
        subst h
        simp only [Memory.read]
        split <;> simp_all
      · rename_i h
        simp only [Memory.read, ih]
        split
        · rename_i hk
          subst hk
          simp [h]
        · rfl

theorem Memory.read_erase (m : Memory) (a b : Nat) :
    (m.erase a).read b = if a = b then Config.unlistedWord else m.read b := by
  induction m with
  | nil => simp [Memory.erase, Memory.read]
  | cons c rest ih =>
    obtain ⟨k, x⟩ := c
    simp only [Memory.erase] at ih ⊢
    by_cases hk : k = a
    · subst hk
      simp only [List.filter_cons, bne_self_eq_false, Bool.false_eq_true, if_false, ih, Memory.read]
      split <;> rfl
    · simp only [List.filter_cons, bne_iff_ne, ne_eq, hk, not_false_eq_true, if_true, Memory.read, ih]
      split
      · rename_i hb
        subst hb
        simp [Ne.symm hk]
      · rfl

/-- Reading any address after a write. -/
theorem Memory.read_write (m : Memory) (a b : Nat) (v : Word) :
    (m.write a v).read b = if a = b then v else m.read b := by
  simp only [Memory.write]
  split
  · rename_i h
    rw [Memory.read_erase, h]
  · exact Memory.read_insert m a b v

/-- The cells of a memory after an insertion are the new cell and cells it had. -/
theorem Memory.mem_insert {m : Memory} {a : Nat} {v : Word} {c : Nat × Word} (h : c ∈ m.insert a v) :
    c = (a, v) ∨ c ∈ m := by
  induction m with
  | nil => simpa [Memory.insert] using h
  | cons d rest ih =>
    obtain ⟨k, x⟩ := d
    simp only [Memory.insert] at h
    split at h
    · simpa using h
    · split at h
      · rcases List.mem_cons.mp h with h | h <;> simp [h]
      · rcases List.mem_cons.mp h with h | h
        · simp [h]
        · rcases ih h with h | h <;> simp [h]

theorem Memory.insert_wf {m : Memory} {a : Nat} {v : Word} (hm : m.wf) (ha : a < Config.memWords)
    (hv : v ≠ Config.unlistedWord) : (m.insert a v).wf := by
  refine ⟨?_, fun c hc => ?_⟩
  · have hp := hm.1
    clear hm
    induction m with
    | nil => simp [Memory.insert]
    | cons d rest ih =>
      obtain ⟨k, x⟩ := d
      obtain ⟨hd, hrest⟩ := List.pairwise_cons.mp hp
      simp only [Memory.insert]
      split
      · rename_i hlt
        refine List.pairwise_cons.mpr ⟨fun c hc => ?_, hp⟩
        rcases List.mem_cons.mp hc with rfl | hc
        · exact hlt
        · exact Nat.lt_trans hlt (hd c hc)
      · split
        · rename_i _ heq
          subst heq
          exact List.pairwise_cons.mpr ⟨hd, hrest⟩
        · refine List.pairwise_cons.mpr ⟨fun c hc => ?_, ih hrest⟩
          rcases Memory.mem_insert hc with rfl | hc
          · show k < a
            omega
          · exact hd c hc
  · rcases Memory.mem_insert hc with rfl | hc
    · exact ⟨ha, hv⟩
    · exact hm.2 c hc

theorem Memory.erase_wf {m : Memory} (a : Nat) (hm : m.wf) : (m.erase a).wf :=
  ⟨hm.1.filter _, fun c hc => hm.2 c (List.mem_filter.mp hc).1⟩

/-- Every write keeps the canonical form. -/
theorem Memory.write_wf {m : Memory} {a : Nat} (v : Word) (hm : m.wf) (ha : a < Config.memWords) :
    (m.write a v).wf := by
  simp only [Memory.write]
  split
  · exact Memory.erase_wf a hm
  · rename_i hv
    exact Memory.insert_wf hm ha hv

/-- A write through an 8-bit address keeps the canonical form. -/
theorem State.memWrite_wf {s : State} (a : Address) (v : Word) (hm : s.mem.wf) : (s.memWrite a v).mem.wf :=
  Memory.write_wf v hm a.isLt

/-- The cells that `ofWords` lists lie in the range of addresses it covers. -/
theorem Memory.mem_ofWords {ws : List Word} {a : Nat} {c : Nat × Word} (h : c ∈ Memory.ofWords a ws) :
    a ≤ c.1 ∧ c.1 < a + ws.length ∧ c.2 ≠ Config.unlistedWord := by
  induction ws generalizing a with
  | nil => simp [Memory.ofWords] at h
  | cons w rest ih =>
    simp only [Memory.ofWords] at h
    simp only [List.length_cons]
    split at h
    · obtain ⟨h1, h2, h3⟩ := ih h
      exact ⟨by omega, by omega, h3⟩
    · rename_i hw
      rcases List.mem_cons.mp h with rfl | h
      · exact ⟨Nat.le_refl _, by simp, hw⟩
      · obtain ⟨h1, h2, h3⟩ := ih h
        exact ⟨by omega, by omega, h3⟩

theorem Memory.ofWords_pairwise (ws : List Word) (a : Nat) :
    (Memory.ofWords a ws).Pairwise (fun c d => c.1 < d.1) := by
  induction ws generalizing a with
  | nil => exact List.Pairwise.nil
  | cons w rest ih =>
    simp only [Memory.ofWords]
    split
    · exact ih (a + 1)
    · exact List.pairwise_cons.mpr ⟨fun c hc => (Memory.mem_ofWords hc).1, ih (a + 1)⟩

/-- The memory of an image is in canonical form. -/
theorem Memory.ofImage_wf (image : Vector Word 256) : (Memory.ofImage image).wf :=
  ⟨Memory.ofWords_pairwise _ _, fun c hc => by
    obtain ⟨_, h2, h3⟩ := Memory.mem_ofWords hc
    simp only [Vector.length_toList] at h2
    exact ⟨by omega, h3⟩⟩

/-- An address below the first listed one reads as an unlisted cell. -/
theorem Memory.ofWords_read_below (ws : List Word) {a b : Nat} (h : b < a) :
    (Memory.ofWords a ws).read b = Config.unlistedWord := by
  induction ws generalizing a with
  | nil => rfl
  | cons w rest ih =>
    simp only [Memory.ofWords]
    split
    · exact ih (by omega)
    · simp only [Memory.read]
      rw [if_neg (by omega)]
      exact ih (by omega)

/-- The memory of a list of words holds each of them at its place. -/
theorem Memory.ofWords_read (ws : List Word) (a i : Nat) (h : i < ws.length) :
    (Memory.ofWords a ws).read (a + i) = ws[i] := by
  induction ws generalizing a i with
  | nil => simp at h
  | cons w rest ih =>
    simp only [Memory.ofWords]
    cases i with
    | zero =>
      split
      · rename_i hw
        rw [Memory.ofWords_read_below _ (by omega), ← hw]
        rfl
      · simp [Memory.read]
    | succ i =>
      have hi : i < rest.length := by simpa using h
      have step : (Memory.ofWords (a + 1) rest).read (a + (i + 1)) = rest[i] := by
        have := ih (a + 1) i hi
        rwa [show a + 1 + i = a + (i + 1) by omega] at this
      split
      · simpa using step
      · simp only [Memory.read]
        rw [if_neg (by omega)]
        simpa using step

end Sys2Proof.Machine
end

