-- ==== Sys2Proof/Laws/PerInstr.lean ====
section
/-! SUPPORT. The per-instruction family `EncodesCanonically`: the encoder gives each instruction a
canonical word (30_encoding.md R85, R89) that carries the instruction's opcode (R78). -/

namespace Sys2Proof.Laws

/-- The instruction's word is canonical and its opcode field is the instruction's opcode. -/
def EncodesCanonically.Statement (i : Instr) : Prop :=
  canonicalWord (encode i) = true ∧ opcodeField (encode i) = i.opcode

/-- The fields below bit 8 leave bits 15 to 8 of a format LS word as the match value has them. -/
theorem encodeLS_high (pattern : Word) (r : BitVec 3) (a : BitVec 5) (lo len : Nat) (h : 8 ≤ lo) :
    (encodeLS pattern r a).extractLsb' lo len = pattern.extractLsb' lo len := by
  ext i hi
  simp only [encodeLS, BitVec.getElem_extractLsb', BitVec.getLsbD_or, BitVec.getLsbD_shiftLeft,
    BitVec.getLsbD_setWidth]
  rw [BitVec.getLsbD_of_ge a _ (by omega), BitVec.getLsbD_of_ge r _ (by omega)]
  simp

/-- The same of a format ALU word. -/
theorem encodeALU_high (pattern : Word) (r1 r2 : BitVec 3) (d : BitVec 2) (lo len : Nat) (h : 8 ≤ lo) :
    (encodeALU pattern r1 r2 d).extractLsb' lo len = pattern.extractLsb' lo len := by
  ext i hi
  simp only [encodeALU, BitVec.getElem_extractLsb', BitVec.getLsbD_or, BitVec.getLsbD_shiftLeft,
    BitVec.getLsbD_setWidth]
  rw [BitVec.getLsbD_of_ge d _ (by omega), BitVec.getLsbD_of_ge r1 _ (by omega),
    BitVec.getLsbD_of_ge r2 _ (by omega)]
  simp

theorem EncodesCanonically.ls (pattern : Word) (r : BitVec 3) (a : BitVec 5) (op : OpcodeBits)
    (h : canonicalWord pattern = true ∧ opcodeField pattern = op) :
    canonicalWord (encodeLS pattern r a) = true ∧ opcodeField (encodeLS pattern r a) = op := by
  simpa only [canonicalWord, opcodeField, encodeLS_high _ _ _ _ _ (by decide : 8 ≤ 12),
    encodeLS_high _ _ _ _ _ (by decide : 8 ≤ 8)] using h

theorem EncodesCanonically.alu (pattern : Word) (r1 r2 : BitVec 3) (d : BitVec 2) (op : OpcodeBits)
    (h : canonicalWord pattern = true ∧ opcodeField pattern = op) :
    canonicalWord (encodeALU pattern r1 r2 d) = true ∧ opcodeField (encodeALU pattern r1 r2 d) = op := by
  simpa only [canonicalWord, opcodeField, encodeALU_high _ _ _ _ _ _ (by decide : 8 ≤ 12),
    encodeALU_high _ _ _ _ _ _ (by decide : 8 ≤ 8)] using h

theorem EncodesCanonically.load (reg : BitVec 3) (addr : BitVec 5) : Statement (.load reg addr) :=
  EncodesCanonically.ls _ _ _ _ ⟨rfl, rfl⟩
theorem EncodesCanonically.add (reg1 reg2 : BitVec 3) (dest : BitVec 2) : Statement (.add reg1 reg2 dest) :=
  EncodesCanonically.alu _ _ _ _ _ ⟨rfl, rfl⟩
theorem EncodesCanonically.sub (reg1 reg2 : BitVec 3) (dest : BitVec 2) : Statement (.sub reg1 reg2 dest) :=
  EncodesCanonically.alu _ _ _ _ _ ⟨rfl, rfl⟩
theorem EncodesCanonically.store (reg : BitVec 3) (addr : BitVec 5) : Statement (.store reg addr) :=
  EncodesCanonically.ls _ _ _ _ ⟨rfl, rfl⟩
theorem EncodesCanonically.and (reg1 reg2 : BitVec 3) (dest : BitVec 2) : Statement (.and reg1 reg2 dest) :=
  EncodesCanonically.alu _ _ _ _ _ ⟨rfl, rfl⟩
theorem EncodesCanonically.or (reg1 reg2 : BitVec 3) (dest : BitVec 2) : Statement (.or reg1 reg2 dest) :=
  EncodesCanonically.alu _ _ _ _ _ ⟨rfl, rfl⟩
theorem EncodesCanonically.jmp (target : BitVec 8) : Statement (.jmp target) := by
  have high (lo len : Nat) (h : 8 ≤ lo) :
      (encode (.jmp target)).extractLsb' lo len = (0x0700#16).extractLsb' lo len := by
    ext i hi
    simp only [encode, BitVec.getElem_extractLsb', BitVec.getLsbD_or, BitVec.getLsbD_setWidth]
    rw [BitVec.getLsbD_of_ge target _ (by omega)]
    simp
  refine ⟨?_, high 8 4 (by decide)⟩
  rw [canonicalWord, high 12 4 (by decide)]
  rfl
theorem EncodesCanonically.halt : Statement .halt := by unfold Statement; decide
theorem EncodesCanonically.undefined0x0 : Statement .undefined0x0 := by unfold Statement; decide
theorem EncodesCanonically.undefined0x8 : Statement .undefined0x8 := by unfold Statement; decide
theorem EncodesCanonically.undefined0x9 : Statement .undefined0x9 := by unfold Statement; decide
theorem EncodesCanonically.undefined0xA : Statement .undefined0xA := by unfold Statement; decide
theorem EncodesCanonically.undefined0xB : Statement .undefined0xB := by unfold Statement; decide
theorem EncodesCanonically.undefined0xC : Statement .undefined0xC := by unfold Statement; decide
theorem EncodesCanonically.undefined0xD : Statement .undefined0xD := by unfold Statement; decide
theorem EncodesCanonically.undefined0xE : Statement .undefined0xE := by unfold Statement; decide

end Sys2Proof.Laws
end

