-- ==== Sys2Proof/Laws/State.lean ====
section
/-! SUPPORT. One lemma per field of State per update, and what `reg` and `memRead` give after an update of
something else. -/

namespace Sys2Proof.Machine

@[simp] theorem State.memWrite_mem (s : State) (a : Address) (v : Word) :
    (s.memWrite a v).mem = s.mem.write a.toNat v := rfl
@[simp] theorem State.memWrite_regs (s : State) (a : Address) (v : Word) :
    (s.memWrite a v).regs = s.regs := rfl
@[simp] theorem State.memWrite_pc (s : State) (a : Address) (v : Word) :
    (s.memWrite a v).pc = s.pc := rfl
@[simp] theorem State.memWrite_running (s : State) (a : Address) (v : Word) :
    (s.memWrite a v).running = s.running := rfl
@[simp] theorem State.memWrite_trace (s : State) (a : Address) (v : Word) :
    (s.memWrite a v).trace = s.trace := rfl

@[simp] theorem State.memWrite_reg (s : State) (a : Address) (v : Word) (q : RegIndex) :
    (s.memWrite a v).reg q = s.reg q := rfl

@[simp] theorem State.setReg_mem (s : State) (r : RegIndex) (v : Word) :
    (s.setReg r v).mem = s.mem := rfl
@[simp] theorem State.setReg_regs (s : State) (r : RegIndex) (v : Word) :
    (s.setReg r v).regs = s.regs.set r.toNat v r.isLt := rfl
@[simp] theorem State.setReg_pc (s : State) (r : RegIndex) (v : Word) : (s.setReg r v).pc = s.pc := rfl
@[simp] theorem State.setReg_running (s : State) (r : RegIndex) (v : Word) :
    (s.setReg r v).running = s.running := rfl
@[simp] theorem State.setReg_trace (s : State) (r : RegIndex) (v : Word) :
    (s.setReg r v).trace = s.trace := rfl

@[simp] theorem State.setReg_memRead (s : State) (r : RegIndex) (v : Word) (b : Address) :
    (s.setReg r v).memRead b = s.memRead b := rfl

@[simp] theorem State.setPc_mem (s : State) (t : ProgramCounter) : (s.setPc t).mem = s.mem := rfl
@[simp] theorem State.setPc_regs (s : State) (t : ProgramCounter) : (s.setPc t).regs = s.regs := rfl
@[simp] theorem State.setPc_pc (s : State) (t : ProgramCounter) : (s.setPc t).pc = t := rfl
@[simp] theorem State.setPc_running (s : State) (t : ProgramCounter) :
    (s.setPc t).running = s.running := rfl
@[simp] theorem State.setPc_trace (s : State) (t : ProgramCounter) : (s.setPc t).trace = s.trace := rfl

@[simp] theorem State.setPc_memRead (s : State) (t : ProgramCounter) (b : Address) :
    (s.setPc t).memRead b = s.memRead b := rfl
@[simp] theorem State.setPc_reg (s : State) (t : ProgramCounter) (q : RegIndex) :
    (s.setPc t).reg q = s.reg q := rfl

@[simp] theorem State.advance_mem (s : State) : (s.advance).mem = s.mem := rfl
@[simp] theorem State.advance_regs (s : State) : (s.advance).regs = s.regs := rfl
@[simp] theorem State.advance_pc (s : State) : (s.advance).pc = nextPc s.pc := rfl
@[simp] theorem State.advance_running (s : State) : (s.advance).running = s.running := rfl
@[simp] theorem State.advance_trace (s : State) : (s.advance).trace = s.trace := rfl

@[simp] theorem State.advance_memRead (s : State) (b : Address) :
    (s.advance).memRead b = s.memRead b := rfl
@[simp] theorem State.advance_reg (s : State) (q : RegIndex) :
    (s.advance).reg q = s.reg q := rfl

@[simp] theorem State.clearRunning_mem (s : State) : (s.clearRunning).mem = s.mem := rfl
@[simp] theorem State.clearRunning_regs (s : State) : (s.clearRunning).regs = s.regs := rfl
@[simp] theorem State.clearRunning_pc (s : State) : (s.clearRunning).pc = s.pc := rfl
@[simp] theorem State.clearRunning_running (s : State) : (s.clearRunning).running = false := rfl
@[simp] theorem State.clearRunning_trace (s : State) : (s.clearRunning).trace = s.trace := rfl

@[simp] theorem State.clearRunning_memRead (s : State) (b : Address) :
    (s.clearRunning).memRead b = s.memRead b := rfl
@[simp] theorem State.clearRunning_reg (s : State) (q : RegIndex) :
    (s.clearRunning).reg q = s.reg q := rfl

@[simp] theorem State.emit_mem (s : State) (r : TraceRecord) : (s.emit r).mem = s.mem := rfl
@[simp] theorem State.emit_regs (s : State) (r : TraceRecord) : (s.emit r).regs = s.regs := rfl
@[simp] theorem State.emit_pc (s : State) (r : TraceRecord) : (s.emit r).pc = s.pc := rfl
@[simp] theorem State.emit_running (s : State) (r : TraceRecord) : (s.emit r).running = s.running := rfl
@[simp] theorem State.emit_trace (s : State) (r : TraceRecord) :
    (s.emit r).trace = s.trace ++ [r] := rfl

@[simp] theorem State.emit_memRead (s : State) (r : TraceRecord) (b : Address) :
    (s.emit r).memRead b = s.memRead b := rfl
@[simp] theorem State.emit_reg (s : State) (r : TraceRecord) (q : RegIndex) :
    (s.emit r).reg q = s.reg q := rfl

/-- Reading a register after a register write. -/
theorem State.setReg_reg (s : State) (r q : RegIndex) (v : Word) :
    (s.setReg r v).reg q = if r = q then v else s.reg q := by
  simp only [State.setReg, State.reg, Vector.getElem_set, BitVec.toNat_inj]

@[simp] theorem State.setReg_reg_same (s : State) (r : RegIndex) (v : Word) :
    (s.setReg r v).reg r = v := by
  simp [State.setReg_reg]

@[simp] theorem State.setReg_reg_other (s : State) (r q : RegIndex) (v : Word) (h : q ≠ r) :
    (s.setReg r v).reg q = s.reg q := by
  simp [State.setReg_reg, h.symm]

/-- Two states with the same fields are the same state. -/
theorem State.ext_fields {s t : State} (hm : s.mem = t.mem) (hr : s.regs = t.regs) (hp : s.pc = t.pc)
    (hrun : s.running = t.running) (ht : s.trace = t.trace) : s = t := by
  cases s; cases t; simp_all

/-- Register files that read alike are equal. -/
theorem State.regs_eq_of_reg {s t : State} (h : ∀ r, s.reg r = t.reg r) : s.regs = t.regs := by
  apply Vector.ext
  intro i hi
  have := h (BitVec.ofNat 3 i)
  simpa [State.reg, Nat.mod_eq_of_lt hi] using this

/-- The increment of a valid fetch address is exact: it does not wrap (10_state.md R26). -/
theorem nextPc_toNat {pc : ProgramCounter} (h : pc.toNat ≤ 255) : (nextPc pc).toNat = pc.toNat + 1 := by
  simp only [nextPc, BitVec.toNat_add, BitVec.toNat_ofNat]
  omega

/-- A valid `pc` is the address that is fetched (10_state.md R24). -/
theorem fetchAddress_toNat {pc : ProgramCounter} (h : pc.toNat ≤ 255) :
    (fetchAddress pc).toNat = pc.toNat := by
  simp only [fetchAddress, BitVec.toNat_setWidth]
  omega

@[simp] theorem State.reset_mem : State.reset.mem = [] := rfl
@[simp] theorem State.reset_running : State.reset.running = true := rfl
@[simp] theorem State.reset_trace : State.reset.trace = [] := rfl

@[simp] theorem State.start_regs (m : Vector Word 256) (r : Vector Word 8) (p : Address) :
    (State.start m r p).regs = r := rfl
@[simp] theorem State.start_mem (m : Vector Word 256) (r : Vector Word 8) (p : Address) :
    (State.start m r p).mem = Memory.ofImage m := rfl
@[simp] theorem State.start_pc (m : Vector Word 256) (r : Vector Word 8) (p : Address) :
    (State.start m r p).pc = p.setWidth 9 := rfl
@[simp] theorem State.start_running (m : Vector Word 256) (r : Vector Word 8) (p : Address) :
    (State.start m r p).running = true := rfl
@[simp] theorem State.start_trace (m : Vector Word 256) (r : Vector Word 8) (p : Address) :
    (State.start m r p).trace = [] := rfl

end Sys2Proof.Machine
end

