-- ==== Sys2Proof/Laws/Step.lean ====
section
/-! SUPPORT. What the shared operations of a step can do, each said once: the fetch, the shared execute
paths, an instruction's effect, the end of a step, and the step itself. -/

namespace Sys2Proof.Machine

theorem fetch_of_canFetch {s : State} (h : s.canFetch) : fetch s = .next s.nextWord := by
  simp [fetch, h.1, h.2, State.nextWord]

/-- The fetch answers a word only from RUNNING with `pc` in 0 to 255, and it is the word at `pc`. -/
theorem fetch_next {s : State} {w : Word} (h : fetch s = .next w) : s.canFetch ∧ w = s.nextWord := by
  simp only [fetch] at h
  split at h
  · rename_i hr
    split at h
    · rename_i hp
      exact ⟨⟨hr, hp⟩, by cases h; rfl⟩
    · cases h
  · cases h

/-- The fetch faults only with `pc` out of range in RUNNING, and the fault names that `pc`. -/
theorem fetch_fault {s : State} {r : Fault} (h : fetch s = .fault r) :
    s.running = true ∧ 255 < s.pc.toNat ∧ r = .pcOutOfRange s.pc := by
  simp only [fetch] at h
  split at h
  · rename_i hr
    split at h
    · cases h
    · rename_i hp
      exact ⟨hr, by omega, by cases h; rfl⟩
  · cases h

/-- The fetch refuses only in HALTED. -/
theorem fetch_refused {s : State} {r : Refusal} (h : fetch s = .refused r) :
    s.running = false ∧ r = .halted := by
  simp only [fetch] at h
  split at h
  · split at h <;> cases h
  · rename_i hr
    exact ⟨by simpa using hr, by cases h; rfl⟩

/-- The shared ALU path writes one of R0 to R3 and advances. -/
theorem aluExecute_next {op : OpcodeBits} {r1 r2 : BitVec 3} {d : BitVec 2} {s t : State}
    (h : aluExecute op r1 r2 d s = .next t) :
    t = (s.setReg (destRegister d) (alu op (s.reg r1) (s.reg r2))).advance := by
  cases h; rfl

/-- The error halt clears `running` and nothing else. -/
theorem errorHalt_next {s t : State} (h : errorHalt s = .next t) : t = s.clearRunning := by
  cases h; rfl

/-- Everything an instruction can do: write one register and advance, write one word at 0 to 31 and
advance, jump, halt, or halt on an undefined opcode. -/
theorem exec_next {i : Instr} {s t : State} (h : exec i s = .next t) :
    (∃ r a, i = .load r a ∧ t = (s.setReg r (s.memRead (dataAddress a))).advance) ∨
    (∃ r a, i = .store r a ∧ t = (s.memWrite (dataAddress a) (s.reg r)).advance) ∨
    (∃ op r1 r2 d, (i = .add r1 r2 d ∧ op = 0x2#4 ∨ i = .sub r1 r2 d ∧ op = 0x3#4 ∨
        i = .and r1 r2 d ∧ op = 0x5#4 ∨ i = .or r1 r2 d ∧ op = 0x6#4) ∧
      t = (s.setReg (destRegister d) (alu op (s.reg r1) (s.reg r2))).advance) ∨
    (∃ n, i = .jmp n ∧ t = s.setPc (jumpTarget n)) ∨
    (i = .halt ∧ t = s.clearRunning.advance) ∨
    ((i = .undefined0x0 ∨ i = .undefined0x8 ∨ i = .undefined0x9 ∨ i = .undefined0xA ∨ i = .undefined0xB ∨
        i = .undefined0xC ∨ i = .undefined0xD ∨ i = .undefined0xE) ∧ t = s.clearRunning) := by
  cases i with
  | load r a => cases h; exact .inl ⟨r, a, rfl, rfl⟩
  | store r a => cases h; exact .inr (.inl ⟨r, a, rfl, rfl⟩)
  | add r1 r2 d => exact .inr (.inr (.inl ⟨_, r1, r2, d, .inl ⟨rfl, rfl⟩, aluExecute_next h⟩))
  | sub r1 r2 d => exact .inr (.inr (.inl ⟨_, r1, r2, d, .inr (.inl ⟨rfl, rfl⟩), aluExecute_next h⟩))
  | and r1 r2 d =>
    exact .inr (.inr (.inl ⟨_, r1, r2, d, .inr (.inr (.inl ⟨rfl, rfl⟩)), aluExecute_next h⟩))
  | or r1 r2 d =>
    exact .inr (.inr (.inl ⟨_, r1, r2, d, .inr (.inr (.inr ⟨rfl, rfl⟩)), aluExecute_next h⟩))
  | jmp n => cases h; exact .inr (.inr (.inr (.inl ⟨n, rfl, rfl⟩)))
  | halt => cases h; exact .inr (.inr (.inr (.inr (.inl ⟨rfl, rfl⟩))))
  | undefined0x0 => exact .inr (.inr (.inr (.inr (.inr ⟨by simp, errorHalt_next h⟩))))
  | undefined0x8 => exact .inr (.inr (.inr (.inr (.inr ⟨by simp, errorHalt_next h⟩))))
  | undefined0x9 => exact .inr (.inr (.inr (.inr (.inr ⟨by simp, errorHalt_next h⟩))))
  | undefined0xA => exact .inr (.inr (.inr (.inr (.inr ⟨by simp, errorHalt_next h⟩))))
  | undefined0xB => exact .inr (.inr (.inr (.inr (.inr ⟨by simp, errorHalt_next h⟩))))
  | undefined0xC => exact .inr (.inr (.inr (.inr (.inr ⟨by simp, errorHalt_next h⟩))))
  | undefined0xD => exact .inr (.inr (.inr (.inr (.inr ⟨by simp, errorHalt_next h⟩))))
  | undefined0xE => exact .inr (.inr (.inr (.inr (.inr ⟨by simp, errorHalt_next h⟩))))

/-- The end of a step emits one record after a next state and changes no other outcome. -/
theorem retire_next {w : Word} {s t : State} {o : Host.Outcome State Fault Refusal}
    (h : retire w s o = .next t) : ∃ u, o = .next u ∧ t = u.emit (traceRecord w s) := by
  cases o with
  | next u => cases h; exact ⟨u, rfl, rfl⟩
  | fault r => cases h
  | refused r => cases h

/-- A step that answers a next state fetched, executed the decoded instruction and emitted its record. -/
theorem step_next {s t : State} (h : step s = .next t) :
    s.canFetch ∧ ∃ u, exec (decode s.nextWord) s = .next u ∧ t = u.emit (traceRecord s.nextWord s) := by
  simp only [step] at h
  cases hf : fetch s with
  | next w =>
    obtain ⟨hc, rfl⟩ := fetch_next hf
    rw [hf] at h
    exact ⟨hc, retire_next h⟩
  | fault r => rw [hf] at h; cases h
  | refused r => rw [hf] at h; cases h

/-- A run of `n + 1` steps that answers a next state is a step and a run of `n`. -/
theorem core_run_succ {n : Nat} {s t : State} (h : Sys2Proof.core.run (n + 1) s = .next t) :
    ∃ u, step s = .next u ∧ Sys2Proof.core.run n u = .next t := by
  simp only [Host.Core.run] at h
  cases hs : Sys2Proof.core.step s with
  | next u => rw [hs] at h; exact ⟨u, hs, h⟩
  | fault r => rw [hs] at h; cases h
  | refused r => rw [hs] at h; cases h

end Sys2Proof.Machine
end

