-- ==== Sys2Proof/Tests/Slice0.lean ====
section
/-! SUPPORT. Tests of the model, each expected value from spec/95_test_vectors.md or a rule's own example
(named at each), and one witness for the hypotheses of every statement that has some. -/

open Sys2Proof Sys2Proof.Machine

namespace Sys2Proof.Tests

/-- A RUNNING state whose next step, at `pc`, fetches `w`; all else as after reset. -/
def ready (pc : ProgramCounter) (w : Nat) : State := ({ State.reset with pc := pc } : State).withFetchWord 16 w

/-- Whether an outcome is a next state with a property. -/
def after (o : Host.Outcome State Fault Refusal) (p : State → Bool) : Bool :=
  match o with
  | .next t => p t
  | _ => false

theorem after_next {o : Host.Outcome State Fault Refusal} {p : State → Bool} (h : after o p = true) :
    ∃ t, o = .next t := by
  cases o with
  | next t => exact ⟨t, rfl⟩
  | fault r => cases h
  | refused r => cases h

/-! ### Decoding: one word per constructor (30_encoding.md R75 to R78; 95_test_vectors.md L2.1) -/

/-- 0000 0001 111 11111 -/
theorem test_decode_load : decode 0x01FF#16 = .load 7#3 31#5 := by decide
/-- 0000 0001 010 00101, LS3 -/
theorem test_decode_load_fields : decode 0x0145#16 = .load 2#3 5#5 := by decide
/-- 0000 0010 000 001 10 -/
theorem test_decode_add : decode 0x0206#16 = .add 0#3 1#3 2#2 := by decide
/-- 0001 0010 001 101 00 -/
theorem test_decode_add_noncanonical : decode 0x1234#16 = .add 1#3 5#3 0#2 := by decide
/-- 0000 0011 100 101 00 -/
theorem test_decode_sub : decode 0x0394#16 = .sub 4#3 5#3 0#2 := by decide
/-- 0000 0100 011 10100, LS5 -/
theorem test_decode_store : decode 0x0474#16 = .store 3#3 20#5 := by decide
/-- 0000 0101 000 110 01 -/
theorem test_decode_and : decode 0x0519#16 = .and 0#3 6#3 1#2 := by decide
/-- 0000 0110 001 111 11 -/
theorem test_decode_or : decode 0x063F#16 = .or 1#3 7#3 3#2 := by decide
/-- 0000 0111 11111111 -/
theorem test_decode_jmp : decode 0x07FF#16 = .jmp 255#8 := by decide
/-- 1111 1111 11111111 -/
theorem test_decode_halt : decode 0xFFFF#16 = .halt := by decide
/-- opcode 0000 -/
theorem test_decode_undefined0x0 : decode 0xF000#16 = .undefined0x0 := by decide
/-- opcode 1000 -/
theorem test_decode_undefined0x8 : decode 0x0800#16 = .undefined0x8 := by decide
/-- opcode 1001 -/
theorem test_decode_undefined0x9 : decode 0x0900#16 = .undefined0x9 := by decide
/-- opcode 1010 -/
theorem test_decode_undefined0xA : decode 0x0A00#16 = .undefined0xA := by decide
/-- opcode 1011 -/
theorem test_decode_undefined0xB : decode 0xABCD#16 = .undefined0xB := by decide
/-- opcode 1100 -/
theorem test_decode_undefined0xC : decode 0x0CFF#16 = .undefined0xC := by decide
/-- opcode 1101 -/
theorem test_decode_undefined0xD : decode 0x0D00#16 = .undefined0xD := by decide
/-- opcode 1110 -/
theorem test_decode_undefined0xE : decode 0x0E12#16 = .undefined0xE := by decide

/-- The table's numbering: bits above the given ones are zero, and two words are no instruction (R70). -/
theorem test_decodeTableWord :
    decodeTableWord 16 0x0206 = some (.add 0#3 1#3 2#2) ∧ decodeTableWord 32 0x0206 = none := by decide

/-- R89's worked example: ADD R2 = R0 + R1 is 0x0206. -/
theorem test_assemble_add : (SourceLine.add 2 0 1).assemble = some 0x0206#16 := by decide

/-! ### WellFormed: an ill-formed term for each check, which the check refuses (30_encoding.md R88, R85) -/

theorem test_wf_refuses_register_8 :
    regNumberOk 8 = false ∧ (SourceLine.load 8 0).wellFormed = false ∧ (SourceLine.store 0 8).wellFormed = false := by
  decide
theorem test_wf_refuses_destination_R4 : destNumberOk 4 = false ∧ (SourceLine.add 4 0 1).assemble = none := by
  decide
theorem test_wf_refuses_data_address_32 : dataAddressOk 32 = false ∧ (SourceLine.store 32 0).assemble = none := by
  decide
theorem test_wf_refuses_jump_target_256 : jumpTargetOk 256 = false ∧ (SourceLine.jmp 256).assemble = none := by
  decide
theorem test_wf_refuses_data_word_65536 : dataWordOk 65536 = false ∧ (SourceLine.word 65536).assemble = none := by
  decide
theorem test_wf_refuses_alu_operands :
    aluOperandsOk 4 0 0 = false ∧ (SourceLine.sub 0 8 0).wellFormed = false ∧
    (SourceLine.and 0 0 8).wellFormed = false ∧ (SourceLine.or 4 7 7).wellFormed = false := by decide
theorem test_wf_refuses_noncanonical_word : canonicalWord 0x1234#16 = false ∧ canonicalWord 0x0234#16 = true := by
  decide
/-- The memory's canonical form: an order that falls, an address outside, a listed zero. -/
theorem test_memory_wf_refuses :
    ¬ Memory.wf [(3, 1#16), (2, 1#16)] ∧ ¬ Memory.wf [(256, 1#16)] ∧ ¬ Memory.wf [(0, 0#16)] := by decide

/-! ### One step of each instruction (95_test_vectors.md L2.2 to L2.5) -/

/-- LS2 -/
theorem test_load_last_address :
    after (step ((ready 0 0x01FF).memWrite 31 0xBEEF#16)) (fun t => t.reg 7 = 0xBEEF#16 ∧ t.pc = 1#9) := by decide
/-- LS3: LOAD of its own word -/
theorem test_load_own_word : after (step (ready 5 0x0145)) (fun t => t.reg 2 = 0x0145#16 ∧ t.pc = 6#9) := by decide
/-- LS6: a STORE over its own word, which the step does not see -/
theorem test_store_over_itself :
    after (step ((ready 0 0x04E0).setReg 7 0xFFFF#16)) (fun t => t.memRead 0 = 0xFFFF#16 ∧ t.running) := by decide
/-- LS5 -/
theorem test_store_address :
    after (step ((ready 7 0x0474).setReg 3 0x10FE#16))
      (fun t => t.memRead 20 = 0x10FE#16 ∧ t.reg 3 = 0x10FE#16 ∧ t.pc = 8#9) := by decide
/-- A2: the sum wraps -/
theorem test_add_wraps :
    after (step (((ready 0 0x0206).setReg 0 0xFFFF#16).setReg 1 1#16)) (fun t => t.reg 2 = 0#16 ∧ t.pc = 1#9) := by
  decide
/-- A5: the destination is both sources -/
theorem test_add_reads_before_write :
    after (step ((ready 0 0x0225).setReg 1 0x1234#16)) (fun t => t.reg 1 = 0x2468#16) := by decide
/-- A9: the order is reg1 - reg2 -/
theorem test_sub_order :
    after (step (((ready 0 0x0322).setReg 0 5#16).setReg 1 3#16)) (fun t => t.reg 2 = 0xFFFE#16) := by decide
/-- A11 -/
theorem test_sub_sign :
    after (step (((ready 0 0x03C4).setReg 6 0x8000#16).setReg 1 1#16)) (fun t => t.reg 0 = 0x7FFF#16) := by decide
/-- A13 -/
theorem test_and :
    after (step (((ready 0 0x0519).setReg 0 0xFFFE#16).setReg 6 0x00FF#16)) (fun t => t.reg 1 = 0x00FE#16) := by
  decide
/-- A16 -/
theorem test_or :
    after (step (((ready 0 0x063F).setReg 1 0x00FE#16).setReg 7 0x1000#16)) (fun t => t.reg 3 = 0x10FE#16) := by
  decide
/-- J1 -/
theorem test_jmp_is_absolute : after (step (ready 10 0x0703)) (fun t => t.pc = 3#9) := by decide
/-- J3: from 255, no fault -/
theorem test_jmp_from_255 : after (step (ready 255 0x0700)) (fun t => t.pc = 0#9 ∧ t.running) := by decide
/-- H2: HALT at 255 leaves 256 -/
theorem test_halt_at_255 : after (step (ready 255 0x0F00)) (fun t => !t.running && t.pc = 256#9) := by decide
/-- H4 with its record: the operand is ignored -/
theorem test_halt_record :
    after (step (ready 3 0x0F5A)) (fun t =>
      t.trace = [⟨3#8, 0x0F5A#16, 0xF#4, .halt, [], [.running false, .pc 4#9], none⟩]) := by decide
/-- U1: the all-zero word, which is what reset memory holds -/
theorem test_undefined_zero_word : after (step State.reset) (fun t => !t.running && t.pc = 0#9) := by decide
/-- U3, U4 -/
theorem test_undefined_holds_pc :
    after (step (ready 1 0x0E12)) (fun t => !t.running && t.pc = 1#9) ∧
    after (step (ready 0 0xABCD)) (fun t => !t.running && t.pc = 0#9) := by decide
/-- U2, and 0x9, 0xA, 0xC, 0xD (43_control.md R155) with the record's kind -/
theorem test_undefined_kind :
    (List.map (fun w => after (step (ready 7 w)) (fun t =>
      !t.running && t.pc = 7#9 && t.trace.map TraceRecord.kind = [.unknownOpcode]))
      [0x0800, 0x09FF, 0x0A00, 0x0C00, 0x0D12]).all id = true := by decide
/-- F1, F2 -/
theorem test_pc_overflow_faults :
    after (step (ready 255 0x0100)) (fun t => t.pc = 256#9 ∧ t.running) ∧
    step { State.reset with pc := 256#9 } = .fault (.pcOutOfRange 256#9) := ⟨by decide, rfl⟩
/-- N1 -/
theorem test_noncanonical_add :
    after (step (((ready 0 0x1234).setReg 1 2#16).setReg 5 3#16)) (fun t => t.reg 0 = 5#16) := by decide
/-- 42_alu.md R130: any other opcode yields zero -/
theorem test_alu_default : alu 0xF#4 1#16 1#16 = 0#16 := by decide

/-! ### Witnesses: states and operands that meet the hypotheses of a statement -/

theorem witness_DecoderIgnoresBits15To12 :
    (0x1234#16).extractLsb' 0 12 = (0x0234#16).extractLsb' 0 12 ∧ 0x1234#16 ≠ 0x0234#16 := by decide
/-- Each of the 16 clauses. -/
theorem witness_OpcodeSelectsTheInstruction :
    ∀ op : BitVec 4, ((op.setWidth 16 <<< 8 : Word)).extractLsb' 8 4 = op := by decide
theorem witness_AssembledFormDecodesToItsInstruction :
    (SourceLine.sub 3 7 0).instr? = some (.sub 7#3 0#3 3#2) ∧ (SourceLine.jmp 255).instr? = some (.jmp 255#8) := by
  decide
theorem witness_LoadCopiesAMemoryWordToARegister :
    (ready 255 0x01FF).canFetch ∧ (ready 255 0x01FF).nextWord.extractLsb' 8 4 = 0x1#4 := by decide
theorem witness_StoreCopiesARegisterToAMemoryWord :
    (ready 0 0x04E0).canFetch ∧ (ready 0 0x04E0).nextWord.extractLsb' 8 4 = 0x4#4 := by decide
theorem witness_AddWritesTheSumModulo65536 :
    (ready 255 0x02FF).canFetch ∧ (ready 255 0x02FF).nextWord.extractLsb' 8 4 = 0x2#4 := by decide
theorem witness_SubWritesTheDifferenceModulo65536 :
    (ready 0 0x0394).canFetch ∧ (ready 0 0x0394).nextWord.extractLsb' 8 4 = 0x3#4 := by decide
theorem witness_AndWritesTheBitwiseAnd :
    (ready 9 0x0519).canFetch ∧ (ready 9 0x0519).nextWord.extractLsb' 8 4 = 0x5#4 := by decide
theorem witness_OrWritesTheBitwiseOr :
    (ready 9 0x063F).canFetch ∧ (ready 9 0x063F).nextWord.extractLsb' 8 4 = 0x6#4 := by decide
theorem witness_JmpGoesToItsAbsoluteTarget :
    (ready 255 0x07FF).canFetch ∧ (ready 255 0x07FF).nextWord.extractLsb' 8 4 = 0x7#4 := by decide
theorem witness_HaltClearsRunningAndAdvances :
    (ready 255 0xFFFF).canFetch ∧ (ready 255 0xFFFF).nextWord.extractLsb' 8 4 = 0xF#4 := by decide
theorem witness_UndefinedOpcodesOnlyClearRunning :
    (ready 255 0x0E12).canFetch ∧ (ready 255 0x0E12).nextWord.extractLsb' 8 4 ∈ undefinedOpcodes ∧
    Instr.undefined0xE ∈ [Instr.undefined0x0, .undefined0x8, .undefined0x9, .undefined0xA, .undefined0xB,
      .undefined0xC, .undefined0xD, .undefined0xE] := by decide
/-- Each of the five clauses. -/
theorem witness_AluComputesItsFourOperations :
    ∃ op : OpcodeBits, op ≠ 0x2#4 ∧ op ≠ 0x3#4 ∧ op ≠ 0x5#4 ∧ op ≠ 0x6#4 := ⟨0x7#4, by decide⟩
/-- JMP 255 at 254 and JMP 1 at 0. -/
theorem witness_NoOperationFormsChangeOnlyThePc :
    (ready 254 0x07FF).pc.toNat + 1 = (255#8).toNat ∧ (ready 0 0x0701).pc.toNat + 1 = (1#8).toNat := by decide
/-- Both ends of the range of fetch addresses. -/
theorem witness_StepRunsTheDecodedInstruction :
    (ready 0 0x0100).running = true ∧ (ready 0 0x0100).pc.toNat ≤ 255 ∧
    (ready 255 0x0100).running = true ∧ (ready 255 0x0100).pc.toNat = 255 := by decide
theorem witness_HaltedHasNoStep : ({ State.reset with running := false } : State).running = false := rfl
/-- Clauses 1 and 2 with `pc` 256, and clause 3 with a LOAD at 255 and with a JMP at 255. -/
theorem witness_PcOutOfRangeFaultsAndWhereItComesFrom :
    (∃ r, ({ State.reset with pc := 256#9 } : State).Inv ∧ 255 < (256#9 : ProgramCounter).toNat ∧
      step { State.reset with pc := 256#9 } = .fault r) ∧
    (∃ t, step (ready 255 0x0100) = .next t) ∧ (∃ t, step (ready 255 0x07FF) = .next t) :=
  ⟨⟨_, by decide, by decide, rfl⟩, ⟨_, rfl⟩, ⟨_, rfl⟩⟩
/-- A LOAD at 255, after which `pc` is 256 in RUNNING, and a HALT at 255. -/
theorem witness_PcDoesNotWrap :
    (∃ t, step (ready 255 0x0100) = .next t ∧ t.pc = 256#9 ∧ t.running = true ∧
      (ready 255 0x0100).nextWord.extractLsb' 8 4 ∉ undefinedOpcodes) ∧
    (∃ t, step (ready 255 0x0F00) = .next t ∧ (ready 255 0x0F00).pc = 255#9 ∧
      (ready 255 0x0F00).nextWord.extractLsb' 8 4 = 0xF#4) :=
  ⟨⟨_, rfl, by decide⟩, ⟨_, rfl, by decide⟩⟩
theorem witness_NewPcOfEachInstruction :
    (∃ t, step (ready 255 0x0100) = .next t) ∧ (∃ t, step (ready 0 0x0704) = .next t) ∧
    (∃ t, step (ready 255 0x0800) = .next t) := ⟨⟨_, rfl⟩, ⟨_, rfl⟩, ⟨_, rfl⟩⟩
/-- A step of each of the six rows. -/
theorem witness_FrameOfEachInstruction :
    (∃ t, step (ready 255 0x01FF) = .next t) ∧ (∃ t, step (ready 0 0x04E0) = .next t) ∧
    (∃ t, step (ready 0 0x02FF) = .next t) ∧ (∃ t, step (ready 255 0x0700) = .next t) ∧
    (∃ t, step (ready 255 0x0F00) = .next t) ∧ (∃ t, step (ready 0 0x0000) = .next t) :=
  ⟨⟨_, rfl⟩, ⟨_, rfl⟩, ⟨_, rfl⟩, ⟨_, rfl⟩, ⟨_, rfl⟩, ⟨_, rfl⟩⟩
/-- LOAD R4 and LOAD R7 change their register. -/
theorem witness_OnlyLoadWritesR4ToR7 :
    (∃ t, step (ready 0 0x0180) = .next t ∧ 4 ≤ (4 : RegIndex).toNat ∧ t.reg 4 ≠ (ready 0 0x0180).reg 4) ∧
    (∃ t, step (ready 0 0x01E0) = .next t ∧ 4 ≤ (7 : RegIndex).toNat ∧ t.reg 7 ≠ (ready 0 0x01E0).reg 7) :=
  ⟨⟨_, rfl, by decide⟩, ⟨_, rfl, by decide⟩⟩
theorem witness_HaltStateMachine :
    (∃ t, step (ready 0 0x0F00) = .next t ∧ t.haltState = .halted) ∧
    (∃ t, step (ready 0 0x0704) = .next t ∧ t.haltState = .running) := ⟨⟨_, rfl, rfl⟩, ⟨_, rfl, rfl⟩⟩
theorem witness_CanonicalMemoriesThatReadAlikeAreEqual :
    Memory.wf [(3, 1#16), (255, 2#16)] ∧
    ∀ a : Address, Memory.read [(3, 1#16), (255, 2#16)] a.toNat = Memory.read [(3, 1#16), (255, 2#16)] a.toNat :=
  ⟨by decide, fun _ => rfl⟩
theorem witness_NoRunWritesAbove31 :
    ∃ t, Sys2Proof.core.run 1 (ready 0 0x041F) = .next t ∧ 32 ≤ (32 : Address).toNat := ⟨_, rfl, by decide⟩
/-- LS8: STORE MEM[6] <= R1 at 6 with R1 = 0x0F00, then JMP 6 at 7. -/
theorem witness_StoreIsSeenByALaterFetch :
    ∃ t u, step (((ready 6 0x0426).setReg 1 0x0F00#16).memWrite 7 0x0706#16) = .next t ∧
      (((ready 6 0x0426).setReg 1 0x0F00#16).memWrite 7 0x0706#16).nextWord.extractLsb' 8 4 = 0x4#4 ∧
      Sys2Proof.core.run 1 t = .next u ∧
      (∀ r ∈ u.trace.drop t.trace.length, r.kind ≠ .store) ∧ u.canFetch ∧
      u.pc.toNat = ((((ready 6 0x0426).setReg 1 0x0F00#16).memWrite 7 0x0706#16).nextWord.extractLsb' 0 5).toNat :=
  ⟨_, _, rfl, by decide, rfl, by decide, by decide, by decide⟩
/-- An image whose every word is STORE MEM[31] <= R0, run for one step from 255. -/
theorem witness_MemoryHoldsTheMostRecentWrite :
    ∃ t, Sys2Proof.core.run 1 (State.start (Vector.replicate 256 0x041F#16) (Vector.replicate 8 1#16) 255#8) =
      .next t := after_next (p := fun t => t.memRead 31 = 1#16) (by decide +kernel)
/-- An image that holds STORE MEM[31] <= R0 at 0 and zeros elsewhere, and the state before its first step. -/
theorem witness_StepKeepsMemoryAtTheMostRecentWrite :
    let m : Vector Word 256 := (Vector.replicate 256 0#16).set 0 0x041F#16
    (∀ a : Address, (ready 0 0x041F).memRead a = lastWrite a (m[a.toNat]'a.isLt) (ready 0 0x041F).trace) ∧
    ∃ t, step (ready 0 0x041F) = .next t := ⟨by decide +kernel, _, rfl⟩
theorem witness_StepKeepsTheInvariant :
    ∃ t, (ready 255 0x041F).Inv ∧ step (ready 255 0x041F) = .next t := ⟨_, by decide, rfl⟩
theorem witness_TraceRecordReplaysTheStep : ∃ t, step (ready 0 0x02FF) = .next t := ⟨_, rfl⟩
/-- A state and the same with another trace: a next state, a fault and a refusal. -/
theorem witness_NoStepReadsTheTrace :
    let tr : List TraceRecord := [⟨0#8, 0x0700#16, 0x7#4, .jmp, [], [.pc 0#9], none⟩]
    (ready 0 0x0206).sameMachine { ready 0 0x0206 with trace := tr } ∧
    (∃ t, step (ready 0 0x0206) = .next t) ∧
    (∃ r, step { State.reset with pc := 256#9 } = .fault r) ∧
    (∃ r, step { State.reset with running := false } = .refused r) :=
  ⟨⟨rfl, rfl, rfl, rfl⟩, ⟨_, rfl⟩, ⟨_, rfl⟩, ⟨_, rfl⟩⟩
theorem witness_LastRecordTellsTheHaltCause :
    (∃ t, (ready 0 0x0F00).running = true ∧ drive 1 (ready 0 0x0F00) = .halted t) ∧
    (∃ t, (ready 0 0x0800).running = true ∧ drive 1 (ready 0 0x0800) = .halted t) :=
  ⟨⟨_, rfl, rfl⟩, ⟨_, rfl, rfl⟩⟩
/-- Each of the three ends that a run can have. -/
theorem witness_RunEndsHaltedOrFaulted :
    (∃ t, drive 1 (ready 0 0x0F00) = .halted t) ∧
    (∃ f, drive 1 { State.reset with pc := 256#9 } = .modelFault f) ∧
    (∃ t, drive 1 (ready 4 0x0704) = .outOfFuel t) := ⟨⟨_, rfl⟩, ⟨_, rfl⟩, ⟨_, rfl⟩⟩
/-- J4, and the last address. -/
theorem witness_JmpToItselfRunsForEver :
    (ready 4 0x0704).canFetch ∧ (ready 4 0x0704).nextWord.extractLsb' 8 4 = 0x7#4 ∧
    ((ready 4 0x0704).nextWord.extractLsb' 0 8).toNat = (ready 4 0x0704).pc.toNat ∧
    ((ready 255 0x07FF).nextWord.extractLsb' 0 8).toNat = (ready 255 0x07FF).pc.toNat := by decide
theorem witness_PlacedWordIsFetchedNext :
    0xFFFF < 65536 ∧ ({ State.reset with pc := 255#9 } : State).canFetch := by decide

end Sys2Proof.Tests
end

section
/-! What a step does to the two control fields, `pc` and `running` (10_state.md R24 to R27, R33): the
laws by the opcode executed, and the statements on the new pc and on the halt state machine. -/

namespace Sys2Proof.Machine

@[simp] theorem State.haltState_eq_running_iff (s : State) : s.haltState = .running ↔ s.running = true := by
  cases h : s.running <;> simp [State.haltState, h]

@[simp] theorem State.haltState_eq_halted_iff (s : State) : s.haltState = .halted ↔ s.running = false := by
  cases h : s.running <;> simp [State.haltState, h]

theorem jumpTarget_toNat (n : BitVec 8) : (jumpTarget n).toNat = n.toNat :=
  BitVec.toNat_setWidth_of_le (by decide)

/-- Only the JMP arm has opcode 0x7, so a word that decodes to a JMP carries its target in bits 7 to 0. -/
theorem decode_eq_jmp {w : Word} {n : BitVec 8} (h : decode w = .jmp n) :
    w.extractLsb' 8 4 = 0x7#4 ∧ n = w.extractLsb' 0 8 := by
  have hop : w.extractLsb' 8 4 = 0x7#4 := by rw [← decode_opcode, h]; rfl
  rw [decode_jmp hop] at h
  exact ⟨hop, (Instr.jmp.inj h).symm⟩

/-- The control part of an instruction's effect: JMP sets `pc` alone, an undefined opcode clears `running`
alone, HALT advances and clears, and every other instruction advances and keeps `running`. -/
theorem exec_control {i : Instr} {s t : State} (h : exec i s = .next t) :
    (∃ n, i = .jmp n ∧ t.pc = jumpTarget n ∧ t.running = s.running) ∨
    (i.opcode ∈ undefinedOpcodes ∧ t.pc = s.pc ∧ t.running = false) ∨
    (i.opcode = 0xF#4 ∧ t.pc = nextPc s.pc ∧ t.running = false) ∨
    ((i.opcode ≠ 0x7#4 ∧ i.opcode ≠ 0xF#4 ∧ i.opcode ∉ undefinedOpcodes) ∧
      t.pc = nextPc s.pc ∧ t.running = s.running) := by
  obtain ⟨r, a, rfl, rfl⟩ | ⟨r, a, rfl, rfl⟩ | ⟨op, r1, r2, d, hi, rfl⟩ | ⟨n, rfl, rfl⟩ | ⟨rfl, rfl⟩ |
    ⟨hi, rfl⟩ := exec_next h
  · exact .inr (.inr (.inr ⟨by simp only [Instr.opcode]; decide, rfl, rfl⟩))
  · exact .inr (.inr (.inr ⟨by simp only [Instr.opcode]; decide, rfl, rfl⟩))
  · refine .inr (.inr (.inr ⟨?_, rfl, rfl⟩))
    obtain ⟨rfl, -⟩ | ⟨rfl, -⟩ | ⟨rfl, -⟩ | ⟨rfl, -⟩ := hi <;> simp only [Instr.opcode] <;> decide
  · exact .inl ⟨n, rfl, rfl, rfl⟩
  · exact .inr (.inr (.inl ⟨rfl, rfl, rfl⟩))
  · refine .inr (.inl ⟨?_, rfl, rfl⟩)
    obtain rfl | rfl | rfl | rfl | rfl | rfl | rfl | rfl := hi <;> decide

/-- The control part of a step, by the opcode of the word at `pc`; `pc + 1` is exact, as a step starts
with `pc` in 0 to 255 (10_state.md R25, R26, R27). -/
theorem step_control {s t : State} (h : step s = .next t) :
    let op := s.nextWord.extractLsb' 8 4
    (op = 0x7#4 ∧ t.pc.toNat = (s.nextWord.extractLsb' 0 8).toNat ∧ t.running = true) ∨
    (op ∈ undefinedOpcodes ∧ t.pc.toNat = s.pc.toNat ∧ t.running = false) ∨
    (op = 0xF#4 ∧ t.pc.toNat = s.pc.toNat + 1 ∧ t.running = false) ∨
    ((op ≠ 0x7#4 ∧ op ≠ 0xF#4 ∧ op ∉ undefinedOpcodes) ∧
      t.pc.toNat = s.pc.toNat + 1 ∧ t.running = true) := by
  obtain ⟨⟨hrun, hpc⟩, u, hexec, rfl⟩ := step_next h
  rw [← decode_opcode, State.emit_pc, State.emit_running, ← hrun, ← nextPc_toNat hpc]
  obtain ⟨n, hi, hp, hr⟩ | ⟨hop, hp, hr⟩ | ⟨hop, hp, hr⟩ | ⟨hop, hp, hr⟩ := exec_control hexec
  · obtain ⟨hop, rfl⟩ := decode_eq_jmp hi
    exact .inl ⟨by rw [decode_opcode, hop], by rw [hp, jumpTarget_toNat], hr⟩
  · exact .inr (.inl ⟨hop, by rw [hp], hr⟩)
  · exact .inr (.inr (.inl ⟨hop, by rw [hp], hr⟩))
  · exact .inr (.inr (.inr ⟨hop, by rw [hp], hr⟩))

/-- Settles O26: each row of R25's table is one case of `step_control`. -/
theorem newPcOfEachInstruction : Obligations.NewPcOfEachInstruction := by
  intro s t h
  dsimp only
  obtain ⟨hop, hp, -⟩ | ⟨hop, hp, -⟩ | ⟨hop, hp, -⟩ | ⟨⟨hjmp, -, hundef⟩, hp, -⟩ := step_control h
  · rw [if_pos hop, hp]
  · have hjmp : s.nextWord.extractLsb' 8 4 ≠ 0x7#4 := fun h7 => absurd (h7 ▸ hop) (by decide)
    rw [if_neg hjmp, if_pos hop, hp]
  · rw [hop, if_neg (by decide), if_neg (by decide), hp]
  · rw [if_neg hjmp, if_neg hundef, hp]

/-- A step ends in HALTED exactly when it ran HALT or an undefined opcode (10_state.md R33). -/
theorem step_running_eq_false_iff {s t : State} (h : step s = .next t) :
    t.running = false ↔
      s.nextWord.extractLsb' 8 4 = 0xF#4 ∨ s.nextWord.extractLsb' 8 4 ∈ undefinedOpcodes := by
  obtain ⟨hop, -, hr⟩ | ⟨hop, -, hr⟩ | ⟨hop, -, hr⟩ | ⟨⟨-, hhalt, hundef⟩, -, hr⟩ := step_control h
  · rw [hr, hop]; decide
  · exact iff_of_true hr (.inr hop)
  · exact iff_of_true hr (.inl hop)
  · simp [hr, hhalt, hundef]

/-- No step starts in HALTED (10_state.md R34). -/
theorem step_ne_next_of_not_running {s : State} (h : s.running = false) (t : State) : step s ≠ .next t := by
  intro hstep
  obtain ⟨⟨hrun, -⟩, -⟩ := step_next hstep
  exact absurd (hrun.symm.trans h) (by decide)

/-- Settles O29: the halt state is `running` read as a state, so the machine is what steps do to `running`. -/
theorem haltStateMachine : Obligations.HaltStateMachine := by
  refine ⟨fun s t h => ⟨?_, ?_⟩, fun s => ⟨s.haltState_eq_running_iff, fun h t => ?_⟩,
    State.start_running, State.reset_running⟩
  · obtain ⟨⟨hrun, -⟩, -⟩ := step_next h
    exact s.haltState_eq_running_iff.mpr hrun
  · exact t.haltState_eq_halted_iff.trans (step_running_eq_false_iff h)
  · exact step_ne_next_of_not_running (s.haltState_eq_halted_iff.mp h) t

end Sys2Proof.Machine
end

section
/-! What the decoder reads out of a word (30_encoding.md R71, R73 to R78): the value of a bit field, and
the statements on the sub-fields and on the opcode map. -/

namespace Sys2Proof

/-- The value of `word[lo+len-1:lo]`: drop the bits below `lo`, keep the next `len` (00_scope.md R9). -/
theorem wordField_toNat (w : Word) (lo len : Nat) :
    (w.extractLsb' lo len).toNat = w.toNat / 2 ^ lo % 2 ^ len := by
  rw [BitVec.extractLsb'_toNat, Nat.shiftRight_eq_div_pow]

/-- The same value with the upper bits dropped first, as for a field cut out of the operand or of the low
bits of it (30_encoding.md R74). -/
theorem wordField_toNat_mod_div (w : Word) (lo len : Nat) :
    (w.extractLsb' lo len).toNat = w.toNat % 2 ^ (lo + len) / 2 ^ lo := by
  rw [wordField_toNat, Nat.pow_add, Nat.mod_mul_right_div_self]

/-- A field that starts at bit 0 is the word modulo a power of two. -/
theorem lowField_toNat (w : Word) (len : Nat) : (w.extractLsb' 0 len).toNat = w.toNat % 2 ^ len := by
  rw [wordField_toNat, Nat.pow_zero, Nat.div_one]

/-- Settles O4: the decoder's outputs are bit fields of the word, and a bit field has its value. -/
theorem decoderFieldsAreTheWordsBits : Obligations.DecoderFieldsAreTheWordsBits := by
  intro w
  simp only [decodeFields_opcode, decodeFields_operand, decodeFields_reg, decodeFields_addr,
    decodeFields_reg1, decodeFields_reg2, decodeFields_dest, decodeFields_target]
  have hreg := wordField_toNat_mod_div w 5 3
  exact ⟨wordField_toNat w 8 4, lowField_toNat w 8, hreg, lowField_toNat w 5, hreg,
    wordField_toNat_mod_div w 2 3, lowField_toNat w 2, lowField_toNat w 8⟩

/-- Settles O5: each row of R78's map is the decoder's law for that opcode value. -/
theorem opcodeSelectsTheInstruction : Obligations.OpcodeSelectsTheInstruction := by
  intro w
  obtain ⟨h0, h8, h9, hA, hB, hC, hD, hE⟩ := decode_undefined (w := w)
  exact ⟨h0, decode_load, decode_add, decode_sub, decode_store, decode_and, decode_or, decode_jmp,
    h8, h9, hA, hB, hC, hD, hE, decode_halt⟩

end Sys2Proof
end

section
/-! LOAD and STORE (41_load_store.md): read after write through an 8-bit address, the step that runs a
decoded instruction with its whole record, and the statements on the two instructions. -/

namespace Sys2Proof.Machine

/-- Reading a memory word after a memory write: two addresses name one cell only if they are equal. -/
theorem State.memWrite_memRead (s : State) (a b : Address) (v : Word) :
    (s.memWrite a v).memRead b = if a = b then v else s.memRead b := by
  simp only [State.memRead, State.memWrite_mem, Memory.read_write, BitVec.toNat_inj]

@[simp] theorem State.memWrite_memRead_same (s : State) (a : Address) (v : Word) :
    (s.memWrite a v).memRead a = v := by
  rw [State.memWrite_memRead, if_pos rfl]

@[simp] theorem State.memWrite_memRead_other (s : State) (a b : Address) (v : Word) (h : b ≠ a) :
    (s.memWrite a v).memRead b = s.memRead b := by
  rw [State.memWrite_memRead, if_neg h.symm]

/-- Zero extension keeps the address (30_encoding.md R80). -/
theorem dataAddress_toNat (a : BitVec 5) : (dataAddress a).toNat = a.toNat :=
  BitVec.toNat_setWidth_of_le (by decide)

theorem exec_load (r : BitVec 3) (a : BitVec 5) (s : State) :
    exec (.load r a) s = .next (s.setReg r (s.memRead (dataAddress a))).advance := rfl

theorem exec_store (r : BitVec 3) (a : BitVec 5) (s : State) :
    exec (.store r a) s = .next (s.memWrite (dataAddress a) (s.reg r)).advance := rfl

/-- The converse of `step_next`: where the engine can fetch, a next state of the decoded instruction is
one of the step, with the record emitted (40_sequencer.md R100). -/
theorem step_of_exec {s t : State} (hc : s.canFetch) (hx : exec (decode s.nextWord) s = .next t) :
    step s = .next (t.emit (traceRecord s.nextWord s)) := by
  simp only [step, fetch_of_canFetch hc, hx, retire]

/-- The record of a step, from the opcode of its word and the instruction the word decodes to. -/
theorem traceRecord_of_decode {w : Word} {op : OpcodeBits} {i : Instr} (s : State)
    (hop : w.extractLsb' 8 4 = op) (hi : decode w = i) :
    traceRecord w s =
      { pcFetch := fetchAddress s.pc, word := w, opcode := op
        kind := (traceEffect i s).kind, reads := (traceEffect i s).reads
        writes := (traceEffect i s).writes, result := (traceEffect i s).result } := by
  subst hop hi
  rfl

/-- Settles O10: LOAD's effect is one register write and the advance, and its step is the one that
`step_of_exec` gives. -/
theorem loadCopiesAMemoryWordToARegister : Obligations.LoadCopiesAMemoryWordToARegister := by
  refine ⟨fun r a s => ?_, fun s hc hop => ?_⟩
  · refine ⟨_, exec_load r a s, ?_, fun q hq => ?_, fun b => ?_, rfl, rfl, rfl⟩
    · rw [State.advance_reg, State.setReg_reg_same, dataAddress]
    · rw [State.advance_reg, State.setReg_reg_other _ _ _ _ hq]
    · rw [State.advance_memRead, State.setReg_memRead]
  · have hi := decode_load hop
    have hx := exec_load (s.nextWord.extractLsb' 5 3) (s.nextWord.extractLsb' 0 5) s
    refine ⟨_, hx, ?_⟩
    rw [step_of_exec hc (hi ▸ hx), traceRecord_of_decode s hop hi]
    rfl

/-- Settles O11: STORE's effect is one memory write and the advance, and its step is the one that
`step_of_exec` gives. -/
theorem storeCopiesARegisterToAMemoryWord : Obligations.StoreCopiesARegisterToAMemoryWord := by
  refine ⟨fun r a s => ?_, fun s hc hop => ?_⟩
  · refine ⟨_, exec_store r a s, ?_, dataAddress_toNat a, fun b hb => ?_, fun q => ?_, rfl, rfl, rfl⟩
    · rw [State.advance_memRead, State.memWrite_memRead_same]
    · rw [State.advance_memRead, State.memWrite_memRead_other _ _ _ _ hb]
    · rw [State.advance_reg, State.memWrite_reg]
  · have hi := decode_store hop
    have hx := exec_store (s.nextWord.extractLsb' 5 3) (s.nextWord.extractLsb' 0 5) s
    refine ⟨_, hx, ?_⟩
    rw [step_of_exec hc (hi ▸ hx), traceRecord_of_decode s hop hi]
    rfl

end Sys2Proof.Machine
end

section
/-! The ALU and ADD, SUB, AND, OR (42_alu.md): the ALU's value for each opcode, what the shared execute
path writes and leaves unchanged, the step of an ALU instruction, and the statements on them. -/

namespace Sys2Proof.Machine

theorem alu_add (a b : Word) : alu 0x2#4 a b = a + b := rfl

theorem alu_sub (a b : Word) : alu 0x3#4 a b = a - b := rfl

theorem alu_and (a b : Word) : alu 0x5#4 a b = a &&& b := rfl

theorem alu_or (a b : Word) : alu 0x6#4 a b = a ||| b := rfl

/-- The defensive default of R130. -/
theorem alu_other {op : OpcodeBits} (a b : Word) (hadd : op ≠ 0x2#4) (hsub : op ≠ 0x3#4)
    (hand : op ≠ 0x5#4) (hor : op ≠ 0x6#4) : alu op a b = 0x0000#16 := by
  rw [alu, if_neg hadd, if_neg hsub, if_neg hand, if_neg hor]

/-- The ALU's sum as a number: 16-bit wraparound on overflow. -/
theorem alu_add_toNat (a b : Word) : (alu 0x2#4 a b).toNat = (a.toNat + b.toNat) % 65536 := by
  rw [alu_add, BitVec.toNat_add]

/-- The ALU's difference in the form that R130 writes beside it, free of negative numbers. -/
theorem alu_sub_toNat (a b : Word) : (alu 0x3#4 a b).toNat = (a.toNat + (65536 - b.toNat)) % 65536 := by
  rw [alu_sub, BitVec.toNat_sub, Nat.add_comm]

/-- The ALU's difference as the integer difference: 16-bit wraparound on underflow. -/
theorem alu_sub_toNat_int (a b : Word) :
    ((alu 0x3#4 a b).toNat : Int) = (a.toNat - b.toNat : Int) % 65536 := by
  have hb : b.toNat < 65536 := b.isLt
  rw [alu_sub_toNat]
  omega

theorem alu_and_getLsbD (a b : Word) (k : Nat) :
    (alu 0x5#4 a b).getLsbD k = (a.getLsbD k && b.getLsbD k) := by
  rw [alu_and, BitVec.getLsbD_and]

theorem alu_or_getLsbD (a b : Word) (k : Nat) :
    (alu 0x6#4 a b).getLsbD k = (a.getLsbD k || b.getLsbD k) := by
  rw [alu_or, BitVec.getLsbD_or]

/-- Settles O19: one law of the ALU for each of its four opcodes, and the default. -/
theorem aluComputesItsFourOperations : Obligations.AluComputesItsFourOperations := by
  refine fun op a b => ⟨?_, ?_, ?_, ?_, ?_⟩
  · rintro rfl; exact alu_add_toNat a b
  · rintro rfl; exact alu_sub_toNat a b
  · rintro rfl; exact alu_and_getLsbD a b
  · rintro rfl; exact alu_or_getLsbD a b
  · rintro ⟨hadd, hsub, hand, hor⟩; exact alu_other a b hadd hsub hand hor

theorem exec_add (r1 r2 : BitVec 3) (d : BitVec 2) (s : State) :
    exec (.add r1 r2 d) s = aluExecute 0x2#4 r1 r2 d s := rfl

theorem exec_sub (r1 r2 : BitVec 3) (d : BitVec 2) (s : State) :
    exec (.sub r1 r2 d) s = aluExecute 0x3#4 r1 r2 d s := rfl

theorem exec_and (r1 r2 : BitVec 3) (d : BitVec 2) (s : State) :
    exec (.and r1 r2 d) s = aluExecute 0x5#4 r1 r2 d s := rfl

theorem exec_or (r1 r2 : BitVec 3) (d : BitVec 2) (s : State) :
    exec (.or r1 r2 d) s = aluExecute 0x6#4 r1 r2 d s := rfl

/-- The shared execute path answers a next state: the destination holds the ALU's value of the old
sources, and beside it only `pc` moves (42_alu.md R135). -/
theorem aluExecute_effect (op : OpcodeBits) (r1 r2 : BitVec 3) (d : BitVec 2) (s : State) :
    ∃ t, aluExecute op r1 r2 d s = .next t ∧ t.reg (d.setWidth 3) = alu op (s.reg r1) (s.reg r2) ∧
      s.keepsRegsBut t (d.setWidth 3) ∧ s.keepsMemory t ∧
      t.pc = s.pc + 1#9 ∧ t.running = s.running ∧ t.trace = s.trace := by
  refine ⟨_, rfl, ?_, fun q hq => ?_, fun a => ?_, rfl, rfl, rfl⟩
  · rw [State.advance_reg, destRegister, State.setReg_reg_same]
  · rw [State.advance_reg, destRegister, State.setReg_reg_other _ _ _ _ hq]
  · rw [State.advance_memRead, State.setReg_memRead]

/-- The step of a word that decodes to an ALU instruction `i`: `i` is one by its effect (`hx`) and by its
part of the record (`ht`). The record's write and result are the destination's value after the step. -/
theorem step_of_aluExecute {s : State} {i : Instr} {op : OpcodeBits} {kind : TraceKind} {r1 r2 : BitVec 3}
    {d : BitVec 2} (hc : s.canFetch) (hop : s.nextWord.extractLsb' 8 4 = op) (hi : decode s.nextWord = i)
    (hx : exec i s = aluExecute op r1 r2 d s) (ht : traceEffect i s = aluTrace kind op r1 r2 d s) :
    ∃ t, exec i s = .next t ∧
      step s = .next (t.emit
        { pcFetch := s.pc.setWidth 8, word := s.nextWord, opcode := op, kind := kind
          reads := [.reg r1 (s.reg r1), .reg r2 (s.reg r2)]
          writes := [.reg (d.setWidth 3) (t.reg (d.setWidth 3)), .pc (s.pc + 1#9)]
          result := some (t.reg (d.setWidth 3)) }) := by
  obtain ⟨t, hnext, hval, -⟩ := aluExecute_effect op r1 r2 d s
  have hxt : exec i s = .next t := hx.trans hnext
  refine ⟨t, hxt, ?_⟩
  rw [step_of_exec hc (hi ▸ hxt), traceRecord_of_decode s hop hi, ht, hval]
  rfl

/-- Settles O12: ADD is the shared execute path with the ALU's sum. -/
theorem addWritesTheSumModulo65536 : Obligations.AddWritesTheSumModulo65536 := by
  refine ⟨fun r1 r2 d s => ?_,
    fun s hc hop => step_of_aluExecute hc hop (decode_add hop) (exec_add _ _ _ s) rfl⟩
  obtain ⟨t, hnext, hval, hframe⟩ := aluExecute_effect 0x2#4 r1 r2 d s
  exact ⟨t, (exec_add r1 r2 d s).trans hnext, hval ▸ alu_add_toNat _ _, hframe⟩

/-- Settles O13: SUB is the shared execute path with the ALU's difference, `reg1` first. -/
theorem subWritesTheDifferenceModulo65536 : Obligations.SubWritesTheDifferenceModulo65536 := by
  refine ⟨fun r1 r2 d s => ?_,
    fun s hc hop => step_of_aluExecute hc hop (decode_sub hop) (exec_sub _ _ _ s) rfl⟩
  obtain ⟨t, hnext, hval, hframe⟩ := aluExecute_effect 0x3#4 r1 r2 d s
  exact ⟨t, (exec_sub r1 r2 d s).trans hnext, hval ▸ alu_sub_toNat_int _ _, hframe⟩

/-- Settles O14: AND is the shared execute path with the ALU's conjunction of each bit. -/
theorem andWritesTheBitwiseAnd : Obligations.AndWritesTheBitwiseAnd := by
  refine ⟨fun r1 r2 d s => ?_,
    fun s hc hop => step_of_aluExecute hc hop (decode_and hop) (exec_and _ _ _ s) rfl⟩
  obtain ⟨t, hnext, hval, hframe⟩ := aluExecute_effect 0x5#4 r1 r2 d s
  exact ⟨t, (exec_and r1 r2 d s).trans hnext, hval ▸ alu_and_getLsbD _ _, hframe⟩

/-- Settles O15: OR is the shared execute path with the ALU's disjunction of each bit. -/
theorem orWritesTheBitwiseOr : Obligations.OrWritesTheBitwiseOr := by
  refine ⟨fun r1 r2 d s => ?_,
    fun s hc hop => step_of_aluExecute hc hop (decode_or hop) (exec_or _ _ _ s) rfl⟩
  obtain ⟨t, hnext, hval, hframe⟩ := aluExecute_effect 0x6#4 r1 r2 d s
  exact ⟨t, (exec_or r1 r2 d s).trans hnext, hval ▸ alu_or_getLsbD _ _, hframe⟩

end Sys2Proof.Machine
end

section
/-! JMP, HALT and the undefined opcodes (43_control.md): the effect of each, and the statements on them.
The eight undefined opcodes share one effect and one part of the record, so each is said once, of every
instruction whose opcode has no meaning. -/

namespace Sys2Proof.Machine

theorem exec_jmp (n : BitVec 8) (s : State) : exec (.jmp n) s = .next (s.setPc (jumpTarget n)) := rfl

theorem exec_halt (s : State) : exec .halt s = .next s.clearRunning.advance := rfl

/-- The instructions that an undefined opcode selects (30_encoding.md R82). -/
theorem undefined_cases {i : Instr} (h : i.opcode ∈ undefinedOpcodes) :
    i = .undefined0x0 ∨ i = .undefined0x8 ∨ i = .undefined0x9 ∨ i = .undefined0xA ∨ i = .undefined0xB ∨
      i = .undefined0xC ∨ i = .undefined0xD ∨ i = .undefined0xE := by
  cases i with
  | load | add | sub | store | and | or | jmp | halt => simp [Instr.opcode, undefinedOpcodes] at h
  | undefined0x0 | undefined0x8 | undefined0x9 | undefined0xA | undefined0xB | undefined0xC
  | undefined0xD | undefined0xE => simp

/-- Every undefined opcode is the error halt (43_control.md R155). -/
theorem exec_undefined {i : Instr} (h : i.opcode ∈ undefinedOpcodes) (s : State) :
    exec i s = .next s.clearRunning := by
  obtain rfl | rfl | rfl | rfl | rfl | rfl | rfl | rfl := undefined_cases h <;> rfl

/-- The record of every undefined opcode marks the error and tells of the one write. -/
theorem traceEffect_undefined {i : Instr} (h : i.opcode ∈ undefinedOpcodes) (s : State) :
    traceEffect i s = undefinedTrace := by
  obtain rfl | rfl | rfl | rfl | rfl | rfl | rfl | rfl := undefined_cases h <;> rfl

/-- Settles O18: the eight instructions are those with an undefined opcode, and a word with such an opcode
decodes to one of them, so both clauses are the error halt. -/
theorem undefinedOpcodesOnlyClearRunning : Obligations.UndefinedOpcodesOnlyClearRunning := by
  refine ⟨fun i s hi => ?_, fun s hc hop => ?_⟩
  · have hop : i.opcode ∈ undefinedOpcodes := List.mem_map_of_mem (f := Instr.opcode) hi
    exact ⟨_, exec_undefined hop s, s.clearRunning_running, s.clearRunning_pc, s.clearRunning_reg,
      s.clearRunning_memRead, s.clearRunning_trace⟩
  · rw [← decode_opcode] at hop
    rw [step_of_exec hc (exec_undefined hop s), traceRecord_of_decode s rfl rfl,
      traceEffect_undefined hop]
    rfl

/-- A jump's target is fetched as it stands: no increment and no truncation (43_control.md R150). -/
theorem fetchAddress_jumpTarget (n : BitVec 8) : fetchAddress (jumpTarget n) = n := by
  have hn : (jumpTarget n).toNat ≤ 255 := jumpTarget_toNat n ▸ Nat.le_of_lt_succ n.isLt
  apply BitVec.eq_of_toNat_eq
  rw [fetchAddress_toNat hn, jumpTarget_toNat]

/-- Settles O16: JMP's effect is one write of `pc`, and its step is the one that `step_of_exec` gives. -/
theorem jmpGoesToItsAbsoluteTarget : Obligations.JmpGoesToItsAbsoluteTarget := by
  refine ⟨fun n s => ?_, fun s hc hop => ?_⟩
  · exact ⟨_, exec_jmp n s, jumpTarget_toNat n, fetchAddress_jumpTarget n, s.setPc_reg _,
      s.setPc_memRead _, s.setPc_running _, s.setPc_trace _⟩
  · have hi := decode_jmp hop
    have hx := exec_jmp (s.nextWord.extractLsb' 0 8) s
    refine ⟨_, hx, ?_⟩
    rw [step_of_exec hc (hi ▸ hx), traceRecord_of_decode s hop hi]
    rfl

/-- Settles O17: HALT clears `running`, so its next state is HALTED and has no step; `pc + 1` is exact in
a step, as a step starts with `pc` in 0 to 255. -/
theorem haltClearsRunningAndAdvances : Obligations.HaltClearsRunningAndAdvances := by
  refine ⟨fun s => ?_, fun s hc hop => ?_⟩
  · have hrun : s.clearRunning.advance.running = false := by
      rw [State.advance_running, State.clearRunning_running]
    refine ⟨_, exec_halt s, hrun, rfl, fun q => ?_, fun a => ?_, rfl, step_ne_next_of_not_running hrun⟩
    · rw [State.advance_reg, State.clearRunning_reg]
    · rw [State.advance_memRead, State.clearRunning_memRead]
  · have hi := decode_halt hop
    have hx := exec_halt s
    have ⟨_, hpc⟩ := hc
    refine ⟨_, hx, ?_, ?_⟩
    · rw [State.advance_pc, State.clearRunning_pc, nextPc_toNat hpc]
    · rw [step_of_exec hc (hi ▸ hx), traceRecord_of_decode s hop hi]
      rfl

end Sys2Proof.Machine
end

section
/-! The encoder (30_encoding.md R85, R88, R89) against the decoder: the value of an encoded word, the fields
the decoder reads back from it, the opcode map by mask and match, and the written form. -/

namespace Sys2Proof

open Sys2Proof.Machine

/-- Numbers that share no bit are or-ed by adding them: `p` ends in `k` zero bits and `b` fits in them. -/
theorem or_eq_add_of_mod_eq_zero {p b k : Nat} (hp : p % 2 ^ k = 0) (hb : b < 2 ^ k) : p ||| b = p + b := by
  obtain ⟨q, rfl⟩ := Nat.dvd_of_mod_eq_zero hp
  exact (Nat.two_pow_add_eq_or_of_lt hb q).symm

/-- A format LS word as a number, for a match value that leaves the operand bits zero. -/
theorem encodeLS_toNat {pattern : Word} (hp : pattern.toNat % 256 = 0) (r : BitVec 3) (a : BitVec 5) :
    (encodeLS pattern r a).toNat = pattern.toNat + r.toNat * 32 + a.toNat := by
  have hr : r.toNat < 8 := r.isLt
  have ha : a.toNat < 32 := a.isLt
  simp only [encodeLS, BitVec.toNat_or, BitVec.toNat_shiftLeft, BitVec.toNat_setWidth, Nat.shiftLeft_eq]
  rw [Nat.mod_eq_of_lt (by omega : r.toNat < 2 ^ 16), Nat.mod_eq_of_lt (by omega : r.toNat * 2 ^ 5 < 2 ^ 16),
    Nat.mod_eq_of_lt (by omega : a.toNat < 2 ^ 16), or_eq_add_of_mod_eq_zero (k := 8) hp (by omega),
    or_eq_add_of_mod_eq_zero (k := 5) (by omega) ha]
  rfl

/-- The same of a format ALU word. -/
theorem encodeALU_toNat {pattern : Word} (hp : pattern.toNat % 256 = 0) (r1 r2 : BitVec 3) (d : BitVec 2) :
    (encodeALU pattern r1 r2 d).toNat = pattern.toNat + r1.toNat * 32 + r2.toNat * 4 + d.toNat := by
  have h1 : r1.toNat < 8 := r1.isLt
  have h2 : r2.toNat < 8 := r2.isLt
  have hd : d.toNat < 4 := d.isLt
  simp only [encodeALU, BitVec.toNat_or, BitVec.toNat_shiftLeft, BitVec.toNat_setWidth, Nat.shiftLeft_eq]
  rw [Nat.mod_eq_of_lt (by omega : r1.toNat < 2 ^ 16), Nat.mod_eq_of_lt (by omega : r1.toNat * 2 ^ 5 < 2 ^ 16),
    Nat.mod_eq_of_lt (by omega : r2.toNat < 2 ^ 16), Nat.mod_eq_of_lt (by omega : r2.toNat * 2 ^ 2 < 2 ^ 16),
    Nat.mod_eq_of_lt (by omega : d.toNat < 2 ^ 16), or_eq_add_of_mod_eq_zero (k := 8) hp (by omega),
    or_eq_add_of_mod_eq_zero (b := r2.toNat * 2 ^ 2) (k := 5) (by omega) (by omega),
    or_eq_add_of_mod_eq_zero (k := 2) (by omega) hd]
  rfl

theorem encodeJmp_toNat (n : BitVec 8) : (encode (.jmp n)).toNat = 0x0700 + n.toNat := by
  have hn : n.toNat < 256 := n.isLt
  simp only [encode, BitVec.toNat_or, BitVec.toNat_setWidth]
  rw [Nat.mod_eq_of_lt (by omega : n.toNat < 2 ^ 16)]
  exact or_eq_add_of_mod_eq_zero (k := 8) (by decide) hn

/-- The decoder's fields of a format LS word are the operands (30_encoding.md R75). -/
theorem encodeLS_fields {pattern : Word} (hp : pattern.toNat % 256 = 0) (r : BitVec 3) (a : BitVec 5) :
    (encodeLS pattern r a).extractLsb' 5 3 = r ∧ (encodeLS pattern r a).extractLsb' 0 5 = a := by
  have hr : r.toNat < 8 := r.isLt
  have ha : a.toNat < 32 := a.isLt
  constructor <;> apply BitVec.eq_of_toNat_eq <;> rw [wordField_toNat, encodeLS_toNat hp] <;> omega

/-- The decoder's fields of a format ALU word are the operands (30_encoding.md R76). -/
theorem encodeALU_fields {pattern : Word} (hp : pattern.toNat % 256 = 0) (r1 r2 : BitVec 3) (d : BitVec 2) :
    (encodeALU pattern r1 r2 d).extractLsb' 5 3 = r1 ∧ (encodeALU pattern r1 r2 d).extractLsb' 2 3 = r2 ∧
      (encodeALU pattern r1 r2 d).extractLsb' 0 2 = d := by
  have h1 : r1.toNat < 8 := r1.isLt
  have h2 : r2.toNat < 8 := r2.isLt
  have hd : d.toNat < 4 := d.isLt
  refine ⟨?_, ?_, ?_⟩ <;> apply BitVec.eq_of_toNat_eq <;> rw [wordField_toNat, encodeALU_toNat hp] <;> omega

theorem encodeJmp_target (n : BitVec 8) : (encode (.jmp n)).extractLsb' 0 8 = n := by
  have hn : n.toNat < 256 := n.isLt
  apply BitVec.eq_of_toNat_eq
  rw [lowField_toNat, encodeJmp_toNat]
  omega

open Laws in
/-- The family of Laws/PerInstr.lean, said of every instruction. -/
theorem encodesCanonically (i : Instr) : EncodesCanonically.Statement i := by
  cases i with
  | load r a => exact EncodesCanonically.load r a
  | add r1 r2 d => exact EncodesCanonically.add r1 r2 d
  | sub r1 r2 d => exact EncodesCanonically.sub r1 r2 d
  | store r a => exact EncodesCanonically.store r a
  | and r1 r2 d => exact EncodesCanonically.and r1 r2 d
  | or r1 r2 d => exact EncodesCanonically.or r1 r2 d
  | jmp n => exact EncodesCanonically.jmp n
  | halt => exact EncodesCanonically.halt
  | undefined0x0 => exact EncodesCanonically.undefined0x0
  | undefined0x8 => exact EncodesCanonically.undefined0x8
  | undefined0x9 => exact EncodesCanonically.undefined0x9
  | undefined0xA => exact EncodesCanonically.undefined0xA
  | undefined0xB => exact EncodesCanonically.undefined0xB
  | undefined0xC => exact EncodesCanonically.undefined0xC
  | undefined0xD => exact EncodesCanonically.undefined0xD
  | undefined0xE => exact EncodesCanonically.undefined0xE

theorem encode_opcode (i : Instr) : (encode i).extractLsb' 8 4 = i.opcode := (encodesCanonically i).2

/-- A canonical word is below 4096 (30_encoding.md R85). -/
theorem toNat_lt_of_canonicalWord {w : Word} (h : canonicalWord w = true) : w.toNat < 4096 := by
  have hw : w.toNat < 65536 := w.isLt
  have hhigh := congrArg BitVec.toNat (of_decide_eq_true h)
  rw [wordField_toNat, BitVec.toNat_ofNat] at hhigh
  omega

/-- The decoder inverts the encoder: the opcode selects the format, and the fields of the format are the
operands (30_encoding.md R89). -/
theorem decode_encode (i : Instr) : decode (encode i) = i := by
  have hop := encode_opcode i
  cases i with
  | load r a =>
    obtain ⟨hr, ha⟩ := encodeLS_fields (pattern := 0x0100#16) rfl r a
    exact (decode_load hop).trans (congrArg₂ Instr.load hr ha)
  | store r a =>
    obtain ⟨hr, ha⟩ := encodeLS_fields (pattern := 0x0400#16) rfl r a
    exact (decode_store hop).trans (congrArg₂ Instr.store hr ha)
  | add r1 r2 d =>
    obtain ⟨h1, h2, hd⟩ := encodeALU_fields (pattern := 0x0200#16) rfl r1 r2 d
    rw [decode_add hop, encode, h1, h2, hd]
  | sub r1 r2 d =>
    obtain ⟨h1, h2, hd⟩ := encodeALU_fields (pattern := 0x0300#16) rfl r1 r2 d
    rw [decode_sub hop, encode, h1, h2, hd]
  | and r1 r2 d =>
    obtain ⟨h1, h2, hd⟩ := encodeALU_fields (pattern := 0x0500#16) rfl r1 r2 d
    rw [decode_and hop, encode, h1, h2, hd]
  | or r1 r2 d =>
    obtain ⟨h1, h2, hd⟩ := encodeALU_fields (pattern := 0x0600#16) rfl r1 r2 d
    rw [decode_or hop, encode, h1, h2, hd]
  | jmp n => rw [decode_jmp hop, encodeJmp_target]
  | halt => exact decode_halt hop
  | undefined0x0 | undefined0x8 | undefined0x9 | undefined0xA | undefined0xB | undefined0xC
  | undefined0xD | undefined0xE => rfl

/-- Settles O1: the decoder inverts the encoder, and the encoder's words are canonical. -/
theorem decodeOfEncodeIsTheInstruction : Obligations.DecodeOfEncodeIsTheInstruction := by
  intro i
  obtain ⟨hcanonical, -⟩ := encodesCanonically i
  exact ⟨decode_encode i, toNat_lt_of_canonicalWord hcanonical⟩

/-- Masking a word with `len` ones from bit `lo` on keeps that field in place. -/
theorem and_fieldMask (w : Word) (lo len : Nat) :
    w &&& ((BitVec.allOnes len).setWidth 16 <<< lo) = (w.extractLsb' lo len).setWidth 16 <<< lo := by
  ext i hi
  by_cases hlo : i < lo
  · simp [hlo]
  · simp [hlo, Nat.add_sub_cancel' (Nat.le_of_not_lt hlo), BitVec.getLsbD_eq_getElem hi, Bool.and_comm]

/-- The bits under the mask 0x0F00 are the opcode's, in place (30_encoding.md R79). -/
theorem and_opcodeMask (w : Word) : w &&& 0x0F00#16 = (w.extractLsb' 8 4).setWidth 16 <<< 8 :=
  and_fieldMask w 8 4

/-- The bits under the mask 0x0FFF are the word without its ignored bits (30_encoding.md R72). -/
theorem and_canonicalMask_toNat (w : Word) : (w &&& 0x0FFF#16).toNat = w.toNat % 4096 :=
  Nat.and_two_pow_sub_one_eq_mod w.toNat 12

/-- An instruction without operands encodes as its opcode with the operand bits zero (log 15). -/
theorem encode_eq_opcode_shiftLeft {i : Instr} (h : i = .halt ∨ i.opcode ∈ undefinedOpcodes) :
    encode i = i.opcode.setWidth 16 <<< 8 := by
  obtain rfl | h := h
  · rfl
  · obtain rfl | rfl | rfl | rfl | rfl | rfl | rfl | rfl := undefined_cases h <;> rfl

/-- Encoding the fields of a format LS word gives it back without its ignored bits. -/
theorem encodeLS_of_fields {w pattern : Word} {op : OpcodeBits} (hop : w.extractLsb' 8 4 = op)
    (hp : pattern.toNat = op.toNat * 256) :
    encodeLS pattern (w.extractLsb' 5 3) (w.extractLsb' 0 5) = w &&& 0x0FFF#16 := by
  apply BitVec.eq_of_toNat_eq
  rw [encodeLS_toNat (by omega), and_canonicalMask_toNat, hp, ← hop, wordField_toNat, wordField_toNat,
    wordField_toNat]
  omega

/-- The same of a format ALU word. -/
theorem encodeALU_of_fields {w pattern : Word} {op : OpcodeBits} (hop : w.extractLsb' 8 4 = op)
    (hp : pattern.toNat = op.toNat * 256) :
    encodeALU pattern (w.extractLsb' 5 3) (w.extractLsb' 2 3) (w.extractLsb' 0 2) = w &&& 0x0FFF#16 := by
  apply BitVec.eq_of_toNat_eq
  rw [encodeALU_toNat (by omega), and_canonicalMask_toNat, hp, ← hop, wordField_toNat, wordField_toNat,
    wordField_toNat, wordField_toNat]
  omega

theorem encodeJmp_of_target {w : Word} (hop : w.extractLsb' 8 4 = 0x7#4) :
    encode (.jmp (w.extractLsb' 0 8)) = w &&& 0x0FFF#16 := by
  have hop := congrArg BitVec.toNat hop
  rw [wordField_toNat, BitVec.toNat_ofNat] at hop
  apply BitVec.eq_of_toNat_eq
  rw [encodeJmp_toNat, and_canonicalMask_toNat, lowField_toNat]
  omega

/-- The opcodes whose instructions have operands (30_encoding.md R75 to R77). -/
theorem opcode_with_operand {op : OpcodeBits} (hhalt : op ≠ 0xF#4) (hundef : op ∉ undefinedOpcodes) :
    op = 0x1#4 ∨ op = 0x2#4 ∨ op = 0x3#4 ∨ op = 0x4#4 ∨ op = 0x5#4 ∨ op = 0x6#4 ∨ op = 0x7#4 := by
  revert op; decide

/-- Settles O2: an opcode without operands keeps the opcode bits alone, and the fields of the other formats
cover bits 7 to 0. -/
theorem encodeOfDecodeClearsIgnoredBits : Obligations.EncodeOfDecodeClearsIgnoredBits := by
  intro w
  split
  case isTrue hop =>
    have hi : decode w = .halt ∨ (decode w).opcode ∈ undefinedOpcodes :=
      hop.imp decode_halt fun h => decode_opcode w ▸ h
    rw [encode_eq_opcode_shiftLeft hi, decode_opcode, and_opcodeMask]
  case isFalse hop =>
    obtain ⟨hhalt, hundef⟩ := not_or.mp hop
    obtain h | h | h | h | h | h | h := opcode_with_operand hhalt hundef
    · rw [decode_load h]; exact encodeLS_of_fields h rfl
    · rw [decode_add h]; exact encodeALU_of_fields h rfl
    · rw [decode_sub h]; exact encodeALU_of_fields h rfl
    · rw [decode_store h]; exact encodeLS_of_fields h rfl
    · rw [decode_and h]; exact encodeALU_of_fields h rfl
    · rw [decode_or h]; exact encodeALU_of_fields h rfl
    · rw [decode_jmp h]; exact encodeJmp_of_target h

/-- Settles O3: the opcode and the operand are fields of bits 11 to 0, and the rest is read from them. -/
theorem decoderIgnoresBits15To12 : Obligations.DecoderIgnoresBits15To12 := by
  intro v w h
  have hfield {lo len : Nat} (hlen : lo + len ≤ 12) : v.extractLsb' lo len = w.extractLsb' lo len := by
    rw [← BitVec.extractLsb'_extractLsb'_of_le hlen, h, BitVec.extractLsb'_extractLsb'_of_le hlen]
  have hop : opcodeField v = opcodeField w := hfield (by decide)
  have hoperand : operandField v = operandField w := hfield (by decide)
  have hfields : decodeFields v = decodeFields w := by rw [decodeFields, decodeFields, hop, hoperand]
  have hdecode : decode v = decode w := congrArg selectInstr hfields
  exact ⟨hfields, hdecode, fun s => by rw [hdecode]⟩

/-- An opcode in place is read back, so two opcodes in place are equal only if they are one opcode. -/
theorem opcode_inPlace_inj {a b : OpcodeBits} : a.setWidth 16 <<< 8 = b.setWidth 16 <<< 8 ↔ a = b := by
  have hread : ∀ op : OpcodeBits, (op.setWidth 16 <<< 8 : Word).extractLsb' 8 4 = op := by decide
  exact ⟨fun h => hread a ▸ hread b ▸ congrArg (BitVec.extractLsb' 8 4) h, fun h => h ▸ rfl⟩

/-- Every row has the mask 0x0F00, so a word selects a row by its opcode alone. -/
theorem selects_eq_decide {row : OpcodeRow} (hrow : row ∈ opcodeTable) (w : Word) :
    row.selects w = decide ((w.extractLsb' 8 4).setWidth 16 <<< 8 = row.pattern) := by
  have hmask : ∀ row ∈ opcodeTable, row.mask = 0x0F00#16 := by decide
  rw [OpcodeRow.selects, hmask row hrow, and_opcodeMask]

/-- Of the 16 rows exactly one has an instruction's opcode as its match value, the instruction's own. -/
theorem opcodeTable_row_of_opcode (i : Instr) :
    (opcodeTable.filter fun row => decide (i.opcode.setWidth 16 <<< 8 = row.pattern)).map
      OpcodeRow.mnemonic = [i.mnemonic] := by
  cases i <;> simp [opcodeTable, Instr.opcode, Instr.mnemonic]

/-- Settles O6: the mask keeps the opcode, which selects one row. -/
theorem maskAndMatchSelectExactlyOneRow : Obligations.MaskAndMatchSelectExactlyOneRow := by
  intro w
  refine ⟨fun i => ?_, ?_⟩
  · rw [and_opcodeMask, opcode_inPlace_inj, decode_opcode]
  · rw [List.filter_congr fun row hrow => selects_eq_decide hrow w, ← decode_opcode]
    exact opcodeTable_row_of_opcode (decode w)

/-- Settles O7: each word's opcode selects its instruction, and its fields are the operands. -/
theorem sampleWordsDecodeAsTheSpecSays : Obligations.SampleWordsDecodeAsTheSpecSays := by
  obtain ⟨-, -, -, -, hB, -⟩ := decode_undefined (w := 0xABCD#16)
  exact ⟨decode_load rfl, decode_store rfl, decode_add rfl, decode_sub rfl, decode_and rfl, decode_or rfl,
    decode_jmp rfl, decode_halt rfl, hB rfl⟩

@[simp] theorem regNumberOk_iff (r : Nat) : regNumberOk r = true ↔ r ≤ 7 :=
  decide_eq_true_iff.trans Nat.lt_succ_iff

@[simp] theorem destNumberOk_iff (d : Nat) : destNumberOk d = true ↔ d ≤ 3 :=
  decide_eq_true_iff.trans Nat.lt_succ_iff

@[simp] theorem dataAddressOk_iff (a : Nat) : dataAddressOk a = true ↔ a ≤ 31 :=
  decide_eq_true_iff.trans Nat.lt_succ_iff

@[simp] theorem jumpTargetOk_iff (n : Nat) : jumpTargetOk n = true ↔ n ≤ 255 :=
  decide_eq_true_iff.trans Nat.lt_succ_iff

@[simp] theorem dataWordOk_iff (v : Nat) : dataWordOk v = true ↔ v ≤ 65535 :=
  decide_eq_true_iff.trans Nat.lt_succ_iff

@[simp] theorem aluOperandsOk_iff (d s t : Nat) :
    aluOperandsOk d s t = true ↔ d ≤ 3 ∧ s ≤ 7 ∧ t ≤ 7 := by
  simp [aluOperandsOk, and_assoc]

/-- A line assembles under any condition that says that it is well formed. -/
theorem assemble_eq_ite {l : SourceLine} {p : Prop} [Decidable p] (h : l.wellFormed = true ↔ p) :
    l.assemble = if p then some (BitVec.ofNat 16 l.bits) else none := by
  simp only [SourceLine.assemble, h]

/-- Settles O8: the condition of each form is its check, read as inequalities (30_encoding.md R88). -/
theorem writtenFormsAssembleOrAreRefused : Obligations.WrittenFormsAssembleOrAreRefused := by
  have hls (r a : Nat) : (regNumberOk r && dataAddressOk a) = true ↔ r ≤ 7 ∧ a ≤ 31 := by simp
  refine ⟨fun r a => assemble_eq_ite (hls r a), fun a r => assemble_eq_ite ?_,
    fun d s t => assemble_eq_ite (aluOperandsOk_iff d s t),
    fun d s t => assemble_eq_ite (aluOperandsOk_iff d s t),
    fun d s t => assemble_eq_ite (aluOperandsOk_iff d s t),
    fun d s t => assemble_eq_ite (aluOperandsOk_iff d s t),
    fun n => assemble_eq_ite (jumpTargetOk_iff n), rfl, fun v => assemble_eq_ite (dataWordOk_iff v)⟩
  rw [SourceLine.wellFormed, Bool.and_comm, hls]

theorem ofNat_shiftLeft (r k : Nat) : BitVec.ofNat 16 (r <<< k) = BitVec.ofNat 16 r <<< k := by
  apply BitVec.eq_of_toNat_eq
  rw [BitVec.toNat_shiftLeft, BitVec.toNat_ofNat, BitVec.toNat_ofNat, Nat.shiftLeft_eq, Nat.shiftLeft_eq,
    Nat.mod_mul_mod]

/-- R89 on numbers and R89 on fields give one format LS word, for operands in range. -/
theorem ofNat_bitsLS (p : Nat) {r a : Nat} (hr : r ≤ 7) (ha : a ≤ 31) :
    BitVec.ofNat 16 (p ||| (r <<< 5) ||| a) =
      encodeLS (BitVec.ofNat 16 p) (BitVec.ofNat 3 r) (BitVec.ofNat 5 a) := by
  rw [encodeLS, BitVec.setWidth_ofNat_of_le_of_lt (by decide) (Nat.lt_succ_of_le hr),
    BitVec.setWidth_ofNat_of_le_of_lt (by decide) (Nat.lt_succ_of_le ha), ← ofNat_shiftLeft,
    BitVec.ofNat_or, BitVec.ofNat_or]

/-- The same of a format ALU word. -/
theorem ofNat_bitsALU (p : Nat) {s t d : Nat} (hd : d ≤ 3) (hs : s ≤ 7) (ht : t ≤ 7) :
    BitVec.ofNat 16 (p ||| (s <<< 5) ||| (t <<< 2) ||| d) =
      encodeALU (BitVec.ofNat 16 p) (BitVec.ofNat 3 s) (BitVec.ofNat 3 t) (BitVec.ofNat 2 d) := by
  rw [encodeALU, BitVec.setWidth_ofNat_of_le_of_lt (by decide) (Nat.lt_succ_of_le hs),
    BitVec.setWidth_ofNat_of_le_of_lt (by decide) (Nat.lt_succ_of_le ht),
    BitVec.setWidth_ofNat_of_le_of_lt (by decide) (Nat.lt_succ_of_le hd), ← ofNat_shiftLeft,
    ← ofNat_shiftLeft, BitVec.ofNat_or, BitVec.ofNat_or, BitVec.ofNat_or]

theorem ofNat_bitsJmp {n : Nat} (hn : n ≤ 255) :
    BitVec.ofNat 16 (0x0700 ||| n) = encode (.jmp (BitVec.ofNat 8 n)) := by
  rw [encode, BitVec.setWidth_ofNat_of_le_of_lt (by decide) (Nat.lt_succ_of_le hn), BitVec.ofNat_or]

/-- Only a well-formed line names an instruction (30_encoding.md R88). -/
theorem wellFormed_of_instr? {l : SourceLine} {i : Instr} (h : l.instr? = some i) : l.wellFormed = true := by
  by_contra hl
  simp [SourceLine.instr?, hl] at h

/-- The word that R89 gives a line is the encoder's word of the instruction the line names. -/
theorem ofNat_bits_eq_encode {l : SourceLine} {i : Instr} (h : l.instr? = some i) :
    BitVec.ofNat 16 l.bits = encode i := by
  have hl := wellFormed_of_instr? h
  simp only [SourceLine.instr?, if_pos hl] at h
  cases l with
  | load r a =>
    obtain ⟨hr, ha⟩ : r ≤ 7 ∧ a ≤ 31 := by simpa [SourceLine.wellFormed] using hl
    cases h
    exact ofNat_bitsLS _ hr ha
  | store a r =>
    obtain ⟨ha, hr⟩ : a ≤ 31 ∧ r ≤ 7 := by simpa [SourceLine.wellFormed] using hl
    cases h
    exact ofNat_bitsLS _ hr ha
  | add d s t | sub d s t | and d s t | or d s t =>
    obtain ⟨hd, hs, ht⟩ := (aluOperandsOk_iff d s t).mp hl
    cases h
    exact ofNat_bitsALU _ hd hs ht
  | jmp n =>
    cases h
    exact ofNat_bitsJmp ((jumpTargetOk_iff n).mp hl)
  | halt => cases h; rfl
  | word v => cases h

/-- Settles O9: the line's word is the encoder's, which the decoder inverts. -/
theorem assembledFormDecodesToItsInstruction : Obligations.AssembledFormDecodesToItsInstruction := by
  intro l i h
  refine ⟨encode i, ?_, rfl, decode_encode i⟩
  rw [SourceLine.assemble, if_pos (wellFormed_of_instr? h), ofNat_bits_eq_encode h]

end Sys2Proof
end

section
/-! A step as its trace record tells it (10_state.md R38, 40_sequencer.md R109): replaying the record's writes
is the instruction's effect. From this come the outcomes of a step, what a step leaves unchanged in the
trace, and memory as the trace's most recent writes (20_memory.md R60). -/

namespace Sys2Proof.Machine

/-- Each instruction's effect is the writes of its part of the record, in their order: the two are written
apart, and this ties them together. In particular every instruction answers a next state. -/
theorem exec_eq_writes (i : Instr) (s : State) :
    exec i s = .next ((traceEffect i s).writes.foldl TraceWrite.apply s) := by
  cases i <;> rfl

/-- The step from a state that can fetch: the record's writes replayed, and the record emitted. -/
theorem step_of_canFetch {s : State} (h : s.canFetch) :
    step s = .next (((traceRecord s.nextWord s).replay s).emit (traceRecord s.nextWord s)) :=
  step_of_exec h (exec_eq_writes (decode s.nextWord) s)

/-- A step answers a next state only where the engine can fetch, and it is the replayed one. -/
theorem step_next_replay {s t : State} (h : step s = .next t) :
    s.canFetch ∧ t = ((traceRecord s.nextWord s).replay s).emit (traceRecord s.nextWord s) := by
  obtain ⟨hc, -⟩ := step_next h
  exact ⟨hc, Host.Outcome.next.inj (h.symm.trans (step_of_canFetch hc))⟩

/-- In RUNNING with `pc` over 255 the step faults (60_exceptions.md R176). -/
theorem step_of_pc_out_of_range {s : State} (hrun : s.running = true) (hpc : 255 < s.pc.toNat) :
    step s = .fault (.pcOutOfRange s.pc) := by
  simp only [step, fetch, if_pos hrun, if_neg (Nat.not_le_of_lt hpc)]

/-- In HALTED the step is refused (10_state.md R34, R37). -/
theorem step_of_not_running {s : State} (hrun : s.running = false) : step s = .refused .halted := by
  simp [step, fetch, hrun]

/-- The three cases of a step request: it is taken, it faults, or it is not accepted (10_state.md R37). -/
theorem step_request_cases (s : State) :
    s.canFetch ∨ (s.running = true ∧ 255 < s.pc.toNat) ∨ s.running = false := by
  cases hrun : s.running with
  | false => exact .inr (.inr rfl)
  | true => exact (Nat.lt_or_ge 255 s.pc.toNat).elim (fun h => .inr (.inl ⟨rfl, h⟩)) fun h => .inl ⟨hrun, h⟩

/-- A step faults exactly in RUNNING with `pc` over 255, and the fault names `pc`. -/
theorem step_fault_iff {s : State} {r : Fault} :
    step s = .fault r ↔ s.running = true ∧ 255 < s.pc.toNat ∧ r = .pcOutOfRange s.pc := by
  refine ⟨fun h => ?_, fun ⟨hrun, hpc, hr⟩ => hr ▸ step_of_pc_out_of_range hrun hpc⟩
  obtain hc | ⟨hrun, hpc⟩ | hrun := step_request_cases s
  · rw [step_of_canFetch hc] at h; cases h
  · rw [step_of_pc_out_of_range hrun hpc] at h; cases h; exact ⟨hrun, hpc, rfl⟩
  · rw [step_of_not_running hrun] at h; cases h

/-- A step is refused exactly in HALTED. -/
theorem step_refused_iff {s : State} {r : Refusal} :
    step s = .refused r ↔ s.running = false ∧ r = .halted := by
  refine ⟨fun h => ?_, fun ⟨hrun, hr⟩ => hr ▸ step_of_not_running hrun⟩
  obtain hc | ⟨hrun, hpc⟩ | hrun := step_request_cases s
  · rw [step_of_canFetch hc] at h; cases h
  · rw [step_of_pc_out_of_range hrun hpc] at h; cases h
  · rw [step_of_not_running hrun] at h; cases h; exact ⟨hrun, rfl⟩

theorem traceEffect_reads_agree (i : Instr) (s : State) : ∀ x ∈ (traceEffect i s).reads, x.agrees s := by
  cases i <;> simp [traceEffect, loadTrace, storeTrace, aluTrace, jmpTrace, haltTrace, undefinedTrace]

/-- The result of every rule is the one 16-bit value it writes, if it writes one. -/
theorem traceEffect_result (i : Instr) (s : State) :
    (traceEffect i s).result = ((traceEffect i s).writes.filterMap TraceWrite.value?).head? := by
  cases i <;> rfl

/-- Settles O40: the record is that of the word at `pc`, whose writes are the instruction's effect. -/
theorem traceRecordReplaysTheStep : Obligations.TraceRecordReplaysTheStep := by
  intro s t h
  obtain ⟨⟨-, hpc⟩, ht⟩ := step_next_replay h
  exact ⟨traceRecord s.nextWord s, ht, fetchAddress_toNat hpc, rfl, rfl,
    traceEffect_reads_agree (decode s.nextWord) s, traceEffect_result (decode s.nextWord) s⟩

/-- What one entry of a record's writes does to a memory word. -/
theorem TraceWrite.apply_memRead (s : State) (x : TraceWrite) (a : Address) :
    (x.apply s).memRead a = x.wordAt a (s.memRead a) := by
  cases x with
  | mem b v => exact State.memWrite_memRead s b a v
  | reg | pc | running => rfl

theorem TraceWrite.apply_trace (s : State) (x : TraceWrite) : (x.apply s).trace = s.trace := by
  cases x <;> rfl

/-- What a record's writes do to a memory word. -/
theorem TraceRecord.replay_memRead (s : State) (r : TraceRecord) (a : Address) :
    (r.replay s).memRead a = r.writes.foldl (TraceWrite.wordAt a) (s.memRead a) := by
  unfold TraceRecord.replay
  induction r.writes generalizing s with
  | nil => rfl
  | cons x xs ih => rw [List.foldl_cons, List.foldl_cons, ih, TraceWrite.apply_memRead]

theorem TraceRecord.replay_trace (s : State) (r : TraceRecord) : (r.replay s).trace = s.trace := by
  unfold TraceRecord.replay
  induction r.writes generalizing s with
  | nil => rfl
  | cons x xs ih => rw [List.foldl_cons, ih, TraceWrite.apply_trace]

/-- A step appends its record and nothing else (40_sequencer.md R109). -/
theorem step_trace {s t : State} (h : step s = .next t) :
    t.trace = s.trace ++ [traceRecord s.nextWord s] := by
  obtain ⟨-, rfl⟩ := step_next_replay h
  rw [State.emit_trace, TraceRecord.replay_trace]

/-- A memory word after a step is what the record's writes make of it. -/
theorem step_memRead {s t : State} (h : step s = .next t) (a : Address) :
    t.memRead a = (traceRecord s.nextWord s).writes.foldl (TraceWrite.wordAt a) (s.memRead a) := by
  obtain ⟨-, rfl⟩ := step_next_replay h
  rw [State.emit_memRead, TraceRecord.replay_memRead]

/-- The most recent write of a longer trace: the last record decides before the older ones. -/
theorem lastWrite_append_singleton (a : Address) (v : Word) (tr : List TraceRecord) (r : TraceRecord) :
    lastWrite a v (tr ++ [r]) = r.writes.foldl (TraceWrite.wordAt a) (lastWrite a v tr) := by
  simp only [lastWrite, List.foldl_append, List.foldl_cons, List.foldl_nil]

/-- Settles O46: a step writes to memory what its record tells of, and appends that record. -/
theorem stepKeepsMemoryAtTheMostRecentWrite : Obligations.StepKeepsMemoryAtTheMostRecentWrite := by
  intro m s t hs h a
  rw [step_memRead h, step_trace h, lastWrite_append_singleton, hs a]

/-- What every step keeps, every run keeps. -/
theorem core_run_keeps {P : State → Prop} (hstep : ∀ s t, P s → step s = .next t → P t) {n : Nat}
    {s t : State} (hs : P s) (h : Sys2Proof.core.run n s = .next t) : P t := by
  induction n generalizing s with
  | zero => exact Host.Outcome.next.inj h ▸ hs
  | succ n ih =>
    obtain ⟨u, hu, hrun⟩ := core_run_succ h
    exact ih (hstep s u hs hu) hrun

/-- At the start each memory word is the image's (70_reset_and_hazards.md R190). -/
theorem start_memRead (m : Vector Word 256) (r : Vector Word 8) (p : Address) (a : Address) :
    (State.start m r p).memRead a = m[a.toNat]'a.isLt := by
  have hread := Memory.ofWords_read m.toList 0 a.toNat (by simpa using a.isLt)
  rw [Nat.zero_add, Vector.getElem_toList] at hread
  exact hread

/-- Settles O34: it holds at the start, where the trace is empty, and O46's lemma keeps it. -/
theorem memoryHoldsTheMostRecentWrite : Obligations.MemoryHoldsTheMostRecentWrite := fun m r p _ _ h =>
  core_run_keeps (stepKeepsMemoryAtTheMostRecentWrite m) (start_memRead m r p) h

/-- A step changes no memory word but the one a STORE names (40_sequencer.md R108). -/
theorem step_memory {s t : State} (h : step s = .next t) :
    s.keepsMemory t ∨ ∃ r b, decode s.nextWord = .store r b ∧ s.keepsMemoryBut t (dataAddress b) := by
  obtain ⟨-, u, hexec, rfl⟩ := step_next h
  obtain ⟨r, b, -, rfl⟩ | ⟨r, b, hi, rfl⟩ | ⟨op, r1, r2, d, -, rfl⟩ | ⟨k, -, rfl⟩ | ⟨-, rfl⟩ | ⟨-, rfl⟩ :=
    exec_next hexec
  case inr.inl =>
    refine .inr ⟨r, b, hi, fun a ha => ?_⟩
    rw [State.emit_memRead, State.advance_memRead, State.memWrite_memRead_other _ _ _ _ ha]
  all_goals exact .inl fun _ => rfl

/-- A STORE's address has five bits, so no step reaches addresses 32 to 255 (20_memory.md R52). -/
theorem step_memRead_above31 {s t : State} (h : step s = .next t) {a : Address} (ha : 32 ≤ a.toNat) :
    t.memRead a = s.memRead a := by
  obtain hmem | ⟨r, b, -, hmem⟩ := step_memory h
  · exact hmem a
  · refine hmem a fun hab => ?_
    have hb : b.toNat < 32 := b.isLt
    rw [hab, dataAddress_toNat] at ha
    omega

/-- Settles O32: no step writes there, so no run does. -/
theorem noRunWritesAbove31 : Obligations.NoRunWritesAbove31 := fun _ s _ h a ha =>
  core_run_keeps (P := fun u => u.memRead a = s.memRead a)
    (fun _ _ hu hstep => (step_memRead_above31 hstep ha).trans hu) rfl h

/-- Only a STORE changes memory, and its record has kind STORE. -/
theorem step_keepsMemory {s t : State} (h : step s = .next t)
    (hk : (traceRecord s.nextWord s).kind ≠ .store) : s.keepsMemory t := by
  obtain hmem | ⟨r, b, hi, -⟩ := step_memory h
  · exact hmem
  · exact absurd (congrArg (fun i => (traceEffect i s).kind) hi) hk

/-- A run appends records to the trace, and keeps memory if none of them is a STORE's. -/
theorem core_run_trace {n : Nat} {s t : State} (h : Sys2Proof.core.run n s = .next t) :
    ∃ rs, t.trace = s.trace ++ rs ∧ ((∀ r ∈ rs, r.kind ≠ .store) → s.keepsMemory t) := by
  induction n generalizing s with
  | zero =>
    obtain rfl : s = t := Host.Outcome.next.inj h
    exact ⟨[], (List.append_nil _).symm, fun _ _ => rfl⟩
  | succ n ih =>
    obtain ⟨u, hu, hrun⟩ := core_run_succ h
    obtain ⟨rs, htrace, hmem⟩ := ih hrun
    refine ⟨traceRecord s.nextWord s :: rs, by rw [htrace, step_trace hu, List.append_assoc]; rfl,
      fun hrs a => ?_⟩
    obtain ⟨hr, hrs⟩ := List.forall_mem_cons.mp hrs
    rw [hmem hrs a, step_keepsMemory hu hr a]

/-- Settles O33: the STORE puts the word there, no later step of the run changes memory, and a fetch reads
the same memory. -/
theorem storeIsSeenByALaterFetch : Obligations.StoreIsSeenByALaterFetch := by
  intro s t h hop n u hrun hrs hc hpc
  obtain ⟨-, v, hexec, rfl⟩ := step_next h
  rw [decode_store hop, exec_store] at hexec
  cases hexec
  obtain ⟨rs, htrace, hmem⟩ := core_run_trace hrun
  rw [htrace, List.drop_left] at hrs
  have haddr : fetchAddress u.pc = dataAddress (s.nextWord.extractLsb' 0 5) := by
    obtain ⟨-, hle⟩ := hc
    apply BitVec.eq_of_toNat_eq
    rw [fetchAddress_toNat hle, dataAddress_toNat, hpc]
  rw [fetch_of_canFetch hc, State.nextWord, haddr, hmem hrs, State.emit_memRead, State.advance_memRead,
    State.memWrite_memRead_same]

end Sys2Proof.Machine
end

section
/-! When a step is taken and when it faults (40_sequencer.md R100, R104, 60_exceptions.md R176), where `pc`
can get to (10_state.md R26), and what each instruction leaves unchanged (40_sequencer.md R108). -/

namespace Sys2Proof.Machine

/-- Settles O22: a step that is taken fetched, and one that can fetch replays its record. -/
theorem stepIsTakenExactlyWhenItCanFetch : Obligations.StepIsTakenExactlyWhenItCanFetch := fun _ =>
  ⟨fun ⟨_, h⟩ => (step_next h).1, fun h => ⟨_, step_of_canFetch h⟩⟩

/-- Settles O21: every instruction answers a next state, and the step emits the record after it. -/
theorem stepRunsTheDecodedInstruction : Obligations.StepRunsTheDecodedInstruction := by
  intro s hrun hpc
  have hexec := exec_eq_writes (decode s.nextWord) s
  exact ⟨_, hexec, step_of_exec ⟨hrun, hpc⟩ hexec, fetchAddress_toNat hpc⟩

/-- The driving loop asks for no step in HALTED (40_sequencer.md R105). -/
theorem drive_of_not_running {s : State} (h : s.running = false) (fuel : Nat) : drive fuel s = .halted s := by
  cases fuel <;> simp [drive, h]

/-- Settles O23: neither the step nor the driving loop does anything in HALTED. -/
theorem haltedHasNoStep : Obligations.HaltedHasNoStep := fun _ h =>
  ⟨step_ne_next_of_not_running h, drive_of_not_running h⟩

/-- No step takes `pc` beyond 256: it jumps to an 8-bit target, holds, or adds one (10_state.md R26). -/
theorem step_pc_le {s t : State} (h : step s = .next t) : t.pc.toNat ≤ 256 := by
  obtain ⟨⟨-, hpc⟩, -⟩ := step_next h
  have htarget : (s.nextWord.extractLsb' 0 8).toNat < 256 := (s.nextWord.extractLsb' 0 8).isLt
  obtain ⟨-, hp, -⟩ | ⟨-, hp, -⟩ | ⟨-, hp, -⟩ | ⟨-, hp, -⟩ := step_control h <;> omega

/-- The opcodes 1 to 6 are those that neither jump nor stop the engine (30_encoding.md R78). -/
theorem opcode_between_1_6_iff (op : OpcodeBits) :
    (1 ≤ op.toNat ∧ op.toNat ≤ 6) ↔ op ≠ 0x7#4 ∧ op ≠ 0xF#4 ∧ op ∉ undefinedOpcodes := by
  revert op; decide

/-- A step leaves RUNNING with `pc` over 255 exactly when it ran one of opcodes 1 to 6 at 255. -/
theorem step_leads_out_of_range_iff {s t : State} (h : step s = .next t) :
    (t.running = true ∧ 255 < t.pc.toNat) ↔
      s.pc.toNat = 255 ∧ 1 ≤ (s.nextWord.extractLsb' 8 4).toNat ∧ (s.nextWord.extractLsb' 8 4).toNat ≤ 6 := by
  obtain ⟨⟨-, hpc⟩, -⟩ := step_next h
  have htarget : (s.nextWord.extractLsb' 0 8).toNat < 256 := (s.nextWord.extractLsb' 0 8).isLt
  rw [opcode_between_1_6_iff]
  obtain ⟨hop, hp, -⟩ | ⟨hop, -, hr⟩ | ⟨hop, -, hr⟩ | ⟨hop, hp, hr⟩ := step_control h
  · exact iff_of_false (fun ⟨_, hlt⟩ => by omega) fun ⟨_, h7, _⟩ => h7 hop
  · exact iff_of_false (fun ⟨hrun, _⟩ => by simp [hr] at hrun) fun ⟨_, _, _, hundef⟩ => hundef hop
  · exact iff_of_false (fun ⟨hrun, _⟩ => by simp [hr] at hrun) fun ⟨_, _, hF, _⟩ => hF hop
  · exact ⟨fun _ => ⟨by omega, hop⟩, fun ⟨h255, _⟩ => ⟨hr, by omega⟩⟩

/-- Settles O24: a fault is RUNNING with `pc` over 255, which the invariant allows at 256 alone. -/
theorem pcOutOfRangeFaultsAndWhereItComesFrom : Obligations.PcOutOfRangeFaultsAndWhereItComesFrom := by
  refine ⟨fun s => step_of_pc_out_of_range, fun s r ⟨_, hle, _⟩ h => ?_, fun s t h => ?_⟩
  · obtain ⟨-, hlt, rfl⟩ := step_fault_iff.mp h
    have hpc : s.pc = 256#9 := BitVec.eq_of_toNat_eq (Nat.le_antisymm hle hlt)
    exact ⟨hpc, congrArg _ hpc⟩
  · have hfault : (∃ r, step t = .fault r) ↔ t.running = true ∧ 255 < t.pc.toNat := by
      simp only [step_fault_iff, exists_and_left, exists_eq, and_true]
    rw [hfault, step_leads_out_of_range_iff h, BitVec.toNat_eq]
    rfl

/-- Settles O25: `pc + 1` is exact in a step, so from 255 it is 256, where the next step faults unless the
step was a HALT. -/
theorem pcDoesNotWrap : Obligations.PcDoesNotWrap := by
  intro s t h
  refine ⟨step_pc_le h, fun hpc hjmp hundef => ?_, fun hpc hrun => ?_, fun _ hop fuel => ?_⟩
  · have hnew := newPcOfEachInstruction s t h
    simp only [if_neg hjmp, if_neg hundef, hpc] at hnew
    exact BitVec.eq_of_toNat_eq hnew
  · rw [step_of_pc_out_of_range hrun (hpc ▸ by decide), hpc]
  · exact drive_of_not_running ((step_running_eq_false_iff h).mpr (.inl hop)) fuel

/-- Writing a register's own value back changes nothing. -/
theorem State.setReg_self (s : State) (r : RegIndex) : s.setReg r (s.reg r) = s := by
  rw [State.setReg, State.reg, Vector.set_getElem_self]

/-- An ALU instruction whose value is the destination's own changes `pc` alone. -/
theorem aluExecute_of_value_self {op : OpcodeBits} {r1 r2 : BitVec 3} {d : BitVec 2} {s : State}
    (h : alu op (s.reg r1) (s.reg r2) = s.reg (destRegister d)) :
    aluExecute op r1 r2 d s = .next { s with pc := s.pc + 1#9 } := by
  rw [aluExecute, h, State.setReg_self]
  rfl

/-- Settles O20: AND and OR of a word with itself give the word, and the target is the address after `pc`. -/
theorem noOperationFormsChangeOnlyThePc : Obligations.NoOperationFormsChangeOnlyThePc := by
  refine fun s => ⟨fun d => ?_, fun d => ?_, fun n hn => ?_⟩
  · rw [exec_or, aluExecute_of_value_self (by rw [alu_or, BitVec.or_self, destRegister])]
  · rw [exec_and, aluExecute_of_value_self (by rw [alu_and, BitVec.and_self, destRegister])]
  · have hle : s.pc.toNat ≤ 255 := by have := n.isLt; omega
    have htarget : jumpTarget n = nextPc s.pc := by
      apply BitVec.eq_of_toNat_eq
      rw [jumpTarget_toNat, nextPc_toNat hle, hn]
    rw [exec_jmp, htarget]
    rfl

theorem destRegister_toNat_le (d : BitVec 2) : (destRegister d).toNat ≤ 3 := by
  have hd : d.toNat < 4 := d.isLt
  rw [destRegister, BitVec.toNat_setWidth_of_le (by decide)]
  omega

/-- The four ALU opcodes share one execute path (42_alu.md R135). -/
theorem exec_eq_aluExecute {w : Word} {op : OpcodeBits} (hop : w.extractLsb' 8 4 = op)
    (halu : op = 0x2#4 ∨ op = 0x3#4 ∨ op = 0x5#4 ∨ op = 0x6#4) (s : State) :
    exec (decode w) s = aluExecute op (w.extractLsb' 5 3) (w.extractLsb' 2 3) (w.extractLsb' 0 2) s := by
  obtain rfl | rfl | rfl | rfl := halu
  · rw [decode_add hop, exec_add]
  · rw [decode_sub hop, exec_sub]
  · rw [decode_and hop, exec_and]
  · rw [decode_or hop, exec_or]

/-- Settles O27: the row of each opcode is the frame of its instruction; the record that the step emits
after it is no part of a row. -/
theorem frameOfEachInstruction : Obligations.FrameOfEachInstruction := by
  intro s t h
  obtain ⟨⟨-, hpc⟩, u, hexec, rfl⟩ := step_next h
  have hnext : (s.pc + 1#9).toNat = s.pc.toNat + 1 := nextPc_toNat hpc
  have hunique {o : Host.Outcome State Fault Refusal} {v : State} (ho : exec (decode s.nextWord) s = o)
      (hv : o = .next v) : u = v := Host.Outcome.next.inj (hexec.symm.trans (ho.trans hv))
  refine ⟨fun hop => ?_, fun hop => ?_, fun hop => ?_, fun hop => ?_, fun hop => ?_, fun hop => ?_⟩
  · obtain ⟨v, hv, -, hregs, hmem, hp, hrun, -⟩ := loadCopiesAMemoryWordToARegister.1
      (s.nextWord.extractLsb' 5 3) (s.nextWord.extractLsb' 0 5) s
    obtain rfl := hunique (by rw [decode_load hop]) hv
    exact ⟨hregs, hmem, by rw [State.emit_pc, hp, hnext], hrun⟩
  · obtain ⟨v, hv, -, -, hmem, hregs, hp, hrun, -⟩ := storeCopiesARegisterToAMemoryWord.1
      (s.nextWord.extractLsb' 5 3) (s.nextWord.extractLsb' 0 5) s
    obtain rfl := hunique (by rw [decode_store hop]) hv
    exact ⟨hregs, hmem, by rw [State.emit_pc, hp, hnext], hrun⟩
  · obtain ⟨v, hv, -, hregs, hmem, hp, hrun, -⟩ := aluExecute_effect (s.nextWord.extractLsb' 8 4)
      (s.nextWord.extractLsb' 5 3) (s.nextWord.extractLsb' 2 3) (s.nextWord.extractLsb' 0 2) s
    obtain rfl := hunique (exec_eq_aluExecute rfl hop s) hv
    exact ⟨hregs, destRegister_toNat_le _, hmem, by rw [State.emit_pc, hp, hnext], hrun⟩
  · obtain ⟨v, hv, hp, -, hregs, hmem, hrun, -⟩ :=
      jmpGoesToItsAbsoluteTarget.1 (s.nextWord.extractLsb' 0 8) s
    obtain rfl := hunique (by rw [decode_jmp hop]) hv
    exact ⟨hregs, hmem, hp, hrun⟩
  · obtain ⟨v, hv, hrun, hp, hregs, hmem, -⟩ := haltClearsRunningAndAdvances.1 s
    obtain rfl := hunique (by rw [decode_halt hop]) hv
    exact ⟨hregs, hmem, by rw [State.emit_pc, hp, hnext], hrun⟩
  · obtain rfl := hunique rfl (exec_undefined ((decode_opcode s.nextWord).symm ▸ hop) s)
    exact ⟨s.clearRunning_reg, s.clearRunning_memRead, rfl, rfl⟩

/-- The rows of the frame summary cover every opcode (40_sequencer.md R108). -/
theorem opcode_frame_rows (op : OpcodeBits) :
    op = 0x1#4 ∨ op = 0x4#4 ∨ (op = 0x2#4 ∨ op = 0x3#4 ∨ op = 0x5#4 ∨ op = 0x6#4) ∨ op = 0x7#4 ∨
      op = 0xF#4 ∨ op ∈ undefinedOpcodes := by
  revert op; decide

/-- Settles O28: by the frame summary, a register other than the destination of an ALU instruction changes
only in the row of LOAD, and there only the one it names. -/
theorem onlyLoadWritesR4ToR7 : Obligations.OnlyLoadWritesR4ToR7 := by
  refine ⟨destRegister_toNat_le, fun s t q h hq hne => ?_⟩
  obtain ⟨hload, hstore, halu, hjmp, hhalt, hundef⟩ := frameOfEachInstruction s t h
  obtain hop | hop | hop | hop | hop | hop := opcode_frame_rows (s.nextWord.extractLsb' 8 4)
  · obtain ⟨hregs, -⟩ := hload hop
    exact ⟨hop, by_contra fun hr => hne (hregs q fun hqr => hr hqr.symm)⟩
  · exact absurd ((hstore hop).1 q) hne
  · obtain ⟨hregs, hd, -⟩ := halu hop
    refine absurd (hregs q fun hqd => ?_) hne
    rw [← hqd] at hd
    omega
  · exact absurd ((hjmp hop).1 q) hne
  · exact absurd ((hhalt hop).1 q) hne
  · exact absurd ((hundef hop).1 q) hne

end Sys2Proof.Machine
end

section
/-! Memory as plain storage and its canonical form (20_memory.md R57; log 1), the start of a run
(70_reset_and_hazards.md R190), and the invariant: it holds at every start and every step keeps it. -/

namespace Sys2Proof.Machine

/-- Settles O30: reading after a write, and the write changes no other field. -/
theorem memoryIsPlainStorage : Obligations.MemoryIsPlainStorage := fun s a b v =>
  ⟨by simp only [State.memWrite_memRead, eq_comm], s.memWrite_reg a v, rfl, rfl, rfl⟩

/-- Where addresses rise, a listed cell is the one its address reads. -/
theorem Memory.read_of_mem {m : Memory} (hm : m.Pairwise fun c d => c.1 < d.1) {a : Nat} {v : Word}
    (h : (a, v) ∈ m) : m.read a = v := by
  induction m with
  | nil => cases h
  | cons c rest ih =>
    obtain ⟨k, x⟩ := c
    obtain ⟨hk, hrest⟩ := List.pairwise_cons.mp hm
    obtain hc | hc := List.mem_cons.mp h
    · cases hc
      exact if_pos rfl
    · exact (if_neg (hk _ hc).ne).trans (ih hrest hc)

/-- An address that reads other than an unlisted cell is listed. -/
theorem Memory.mem_of_read_ne {m : Memory} {a : Nat} (h : m.read a ≠ Config.unlistedWord) :
    (a, m.read a) ∈ m := by
  induction m with
  | nil => exact absurd rfl h
  | cons c rest ih =>
    obtain ⟨k, x⟩ := c
    by_cases hk : k = a
    · subst hk
      simp [Memory.read]
    · have hread : Memory.read ((k, x) :: rest) a = Memory.read rest a := if_neg hk
      rw [hread] at h ⊢
      exact List.mem_cons_of_mem _ (ih h)

/-- The cells of a canonical memory are told by what its addresses read as. -/
theorem Memory.mem_iff_read {m : Memory} (hm : m.wf) {a : Nat} {v : Word} :
    (a, v) ∈ m ↔ a < Config.memWords ∧ v ≠ Config.unlistedWord ∧ m.read a = v := by
  obtain ⟨hsorted, hcells⟩ := hm
  refine ⟨fun h => ?_, fun ⟨_, hv, hread⟩ => ?_⟩
  · obtain ⟨ha, hv⟩ := hcells _ h
    exact ⟨ha, hv, Memory.read_of_mem hsorted h⟩
  · subst hread
    exact Memory.mem_of_read_ne hv

/-- Settles O31: memories that read alike have the same cells, and rising addresses fix their order. -/
theorem canonicalMemoriesThatReadAlikeAreEqual : Obligations.CanonicalMemoriesThatReadAlikeAreEqual := by
  intro m n hm hn h
  have hread (a : Nat) (ha : a < Config.memWords) : m.read a = n.read a := by
    simpa [Nat.mod_eq_of_lt ha] using h (BitVec.ofNat 8 a)
  have hcells (c : Nat × Word) : c ∈ m ↔ c ∈ n := by
    obtain ⟨a, v⟩ := c
    rw [Memory.mem_iff_read hm, Memory.mem_iff_read hn]
    exact and_congr_right fun ha => by rw [hread a ha]
  have hperm : m.Perm n :=
    (List.perm_ext_iff_of_nodup (hm.1.imp fun hlt heq => hlt.ne (congrArg Prod.fst heq))
      (hn.1.imp fun hlt heq => hlt.ne (congrArg Prod.fst heq))).mpr hcells
  exact hperm.eq_of_pairwise (fun c d _ _ hcd hdc => absurd hcd hdc.asymm) hm.1 hn.1

/-- An 8-bit start address is the 9-bit `pc` it becomes. -/
theorem start_pc_toNat (m : Vector Word 256) (r : Vector Word 8) (p : Address) :
    (State.start m r p).pc.toNat = p.toNat :=
  BitVec.toNat_setWidth_of_le (by decide)

/-- Settles O35: the image is read back from the list of its cells, the rest is as given. -/
theorem startHoldsTheLaunchParameters : Obligations.StartHoldsTheLaunchParameters := fun m r p =>
  ⟨start_memRead m r p, fun _ => rfl, start_pc_toNat m r p, rfl, rfl⟩

/-- An image of unlisted words lists no cell. -/
theorem Memory.ofWords_replicate_unlisted (n a : Nat) :
    Memory.ofWords a (List.replicate n Config.unlistedWord) = [] := by
  induction n generalizing a with
  | zero => rfl
  | succ n ih => rw [List.replicate_succ, Memory.ofWords, if_pos rfl, ih]

theorem reset_eq_start :
    State.reset = State.start (Vector.replicate 256 0x0000#16) (Vector.replicate 8 0x0000#16) 0#8 := by
  refine State.ext_fields ?_ rfl rfl rfl rfl
  rw [State.reset_mem, State.start_mem, Memory.ofImage, Vector.toList_replicate]
  exact (Memory.ofWords_replicate_unlisted 256 0).symm

/-- Settles O36: reset holds no listed cell and the reference value in every register. -/
theorem resetIsTheReferenceStart : Obligations.ResetIsTheReferenceStart :=
  ⟨rfl, fun _ => Vector.getElem_replicate _, rfl, fun _ => rfl, rfl, reset_eq_start⟩

/-- Settles O39: the image's cells are in canonical form, and nothing has been traced. -/
theorem everyStartMeetsTheInvariant : Obligations.EveryStartMeetsTheInvariant := by
  refine fun m r p => ⟨Memory.ofImage_wf m, ?_, rfl, rfl⟩
  rw [start_pc_toNat]
  exact p.isLt.le

/-- Settles O38: reset is a start. -/
theorem resetMeetsTheInvariant : Obligations.ResetMeetsTheInvariant := by
  unfold Obligations.ResetMeetsTheInvariant
  rw [reset_eq_start]
  exact everyStartMeetsTheInvariant _ _ _

/-- Every step keeps the canonical form: only STORE writes memory, through an 8-bit address. -/
theorem step_keeps_wf {s t : State} (h : step s = .next t) (hm : s.mem.wf) : t.mem.wf := by
  obtain ⟨-, u, hexec, rfl⟩ := step_next h
  obtain ⟨r, b, -, rfl⟩ | ⟨r, b, -, rfl⟩ | ⟨op, r1, r2, d, -, rfl⟩ | ⟨k, -, rfl⟩ | ⟨-, rfl⟩ | ⟨-, rfl⟩ :=
    exec_next hexec
  case inr.inl => exact State.memWrite_wf _ _ hm
  all_goals exact hm

/-- The record of an instruction halts exactly if the instruction clears `running` (43_control.md R151, R155). -/
theorem exec_running {i : Instr} {s t : State} (h : exec i s = .next t) :
    t.running = (s.running && !(traceEffect i s).kind.halts) := by
  obtain ⟨r, a, rfl, rfl⟩ | ⟨r, a, rfl, rfl⟩ | ⟨op, r1, r2, d, hi, rfl⟩ | ⟨n, rfl, rfl⟩ | ⟨rfl, rfl⟩ |
    ⟨hi, rfl⟩ := exec_next h
  · exact (Bool.and_true _).symm
  · exact (Bool.and_true _).symm
  · obtain ⟨rfl, -⟩ | ⟨rfl, -⟩ | ⟨rfl, -⟩ | ⟨rfl, -⟩ := hi <;> exact (Bool.and_true _).symm
  · exact (Bool.and_true _).symm
  · exact (Bool.and_false _).symm
  · obtain rfl | rfl | rfl | rfl | rfl | rfl | rfl | rfl := hi <;> exact (Bool.and_false _).symm

/-- After a step the engine runs exactly if the record does not halt (40_sequencer.md R110). -/
theorem step_running {s t : State} (h : step s = .next t) :
    t.running = !(traceRecord s.nextWord s).kind.halts := by
  obtain ⟨⟨hrun, -⟩, u, hexec, rfl⟩ := step_next h
  rw [State.emit_running, exec_running hexec, hrun, Bool.true_and]
  rfl

/-- A step starts with no halting record, so the one it appends is the only one that may halt. -/
theorem step_keeps_haltTraced {s t : State} (h : step s = .next t) (hs : s.haltTraced) : t.haltTraced := by
  obtain ⟨⟨hrun, -⟩, -⟩ := step_next h
  obtain ⟨hall, -⟩ := hs
  rw [hrun] at hall
  refine ⟨?_, ?_⟩
  · rw [step_running h, step_trace h, List.all_append, ← hall, List.all_cons, List.all_nil, Bool.and_true,
      Bool.true_and]
  · rw [step_trace h, List.dropLast_concat, ← hall]

/-- Settles O37: each part of the invariant is kept on its own. -/
theorem stepKeepsTheInvariant : Obligations.StepKeepsTheInvariant := fun _ _ ⟨hm, _, htraced⟩ h =>
  ⟨step_keeps_wf h hm, step_pc_le h, step_keeps_haltTraced h htraced⟩

end Sys2Proof.Machine
end

section
/-! Runs: the driving loop and its three ends (40_sequencer.md R105, R106, R110), the trace that no step reads
(R109), the run that never ends (70_reset_and_hazards.md R196), and the word placed for a step (log 5). -/

namespace Sys2Proof.Machine

/-- What a record tells of a state does not depend on the trace. -/
theorem traceRecord_eq_of_sameMachine {s u : State} (h : s.sameMachine u) (w : Word) :
    traceRecord w s = traceRecord w u := by
  obtain ⟨mem, regs, pc, running, trace⟩ := s
  obtain ⟨rfl, rfl, rfl, rfl⟩ := h
  unfold traceRecord
  cases decode w <;> rfl

/-- A write makes states with the same machine again such states. -/
theorem TraceWrite.apply_sameMachine {s u : State} (h : s.sameMachine u) (x : TraceWrite) :
    (x.apply s).sameMachine (x.apply u) := by
  obtain ⟨mem, regs, pc, running, trace⟩ := s
  obtain ⟨rfl, rfl, rfl, rfl⟩ := h
  cases x <;> exact ⟨rfl, rfl, rfl, rfl⟩

theorem TraceRecord.replay_sameMachine {s u : State} (h : s.sameMachine u) (r : TraceRecord) :
    (r.replay s).sameMachine (r.replay u) := by
  unfold TraceRecord.replay
  induction r.writes generalizing s u with
  | nil => exact h
  | cons x xs ih => exact ih (x.apply_sameMachine h)

/-- Settles O41: which outcome a step has, its record and the record's replay read the machine alone. -/
theorem noStepReadsTheTrace : Obligations.NoStepReadsTheTrace := by
  intro s u h
  have ⟨hmem, _, hpc, hrunning⟩ := h
  refine ⟨fun t ht => ?_, fun r hr => ?_, fun r hr => ?_⟩
  · obtain ⟨hc, rfl⟩ := step_next_replay ht
    have hu : u.canFetch := by rwa [State.canFetch, ← hrunning, ← hpc]
    have hword : u.nextWord = s.nextWord := by
      rw [State.nextWord, State.nextWord, State.memRead, State.memRead, hmem, hpc]
    have hstep := step_of_canFetch hu
    rw [hword, ← traceRecord_eq_of_sameMachine h] at hstep
    refine ⟨_, _, hstep, TraceRecord.replay_sameMachine h _, step_trace ht, ?_⟩
    rw [State.emit_trace, TraceRecord.replay_trace]
  · rwa [step_fault_iff, ← hrunning, ← hpc, ← step_fault_iff]
  · rwa [step_refused_iff, ← hrunning, ← step_refused_iff]

/-- One turn of the driving loop that takes a step. -/
theorem drive_succ_of_step {s t : State} (h : step s = .next t) (fuel : Nat) :
    drive (fuel + 1) s = drive fuel t := by
  obtain ⟨⟨hrun, -⟩, -⟩ := step_next h
  rw [drive, if_pos hrun, h]

/-- One turn of the driving loop that faults. -/
theorem drive_succ_of_pc_out_of_range {s : State} (hrun : s.running = true) (hpc : 255 < s.pc.toNat)
    (fuel : Nat) : drive (fuel + 1) s = .modelFault (.pcOutOfRange s.pc) := by
  rw [drive, if_pos hrun, step_of_pc_out_of_range hrun hpc]

/-- The ends of the driving loop (40_sequencer.md R106), and out of fuel, which is no end. -/
theorem drive_cases (fuel : Nat) (s : State) :
    (∃ t, drive fuel s = .halted t ∧ t.running = false) ∨
    (∃ pc, drive fuel s = .modelFault (.pcOutOfRange pc)) ∨
    (∃ t, drive fuel s = .outOfFuel t ∧ t.running = true) := by
  induction fuel generalizing s with
  | zero =>
    cases hrun : s.running with
    | false => exact .inl ⟨s, drive_of_not_running hrun 0, hrun⟩
    | true => exact .inr (.inr ⟨s, if_pos hrun, hrun⟩)
  | succ fuel ih =>
    obtain hc | ⟨hrun, hpc⟩ | hrun := step_request_cases s
    · rw [drive_succ_of_step (step_of_canFetch hc)]
      exact ih _
    · exact .inr (.inl ⟨s.pc, drive_succ_of_pc_out_of_range hrun hpc fuel⟩)
    · exact .inl ⟨s, drive_of_not_running hrun _, hrun⟩

/-- More fuel changes no end. -/
theorem drive_add_fuel {fuel : Nat} {s : State} (h : ∀ t, drive fuel s ≠ .outOfFuel t) (more : Nat) :
    drive (fuel + more) s = drive fuel s := by
  induction fuel generalizing s with
  | zero =>
    cases hrun : s.running with
    | false => rw [drive_of_not_running hrun, drive_of_not_running hrun]
    | true => exact absurd (if_pos hrun) (h s)
  | succ fuel ih =>
    rw [Nat.succ_add_eq_add_succ, Nat.add_succ]
    obtain hc | ⟨hrun, hpc⟩ | hrun := step_request_cases s
    · have hstep := step_of_canFetch hc
      rw [drive_succ_of_step hstep] at h ⊢
      rw [drive_succ_of_step hstep]
      exact ih h
    · rw [drive_succ_of_pc_out_of_range hrun hpc, drive_succ_of_pc_out_of_range hrun hpc]
    · rw [drive_of_not_running hrun, drive_of_not_running hrun]

/-- Settles O43: the driving loop has the ends of `drive_cases`, and more fuel changes none of them. -/
theorem runEndsHaltedOrFaulted : Obligations.RunEndsHaltedOrFaulted := by
  intro fuel s
  have hcases := drive_cases fuel s
  refine ⟨fun t h => ⟨?_, fun more => ?_⟩, fun f h => ⟨?_, fun more => ?_⟩, fun f h => ?_, fun t h => ?_⟩
  · simpa [h] using hcases
  · rw [drive_add_fuel (by simp [h]), h]
  · simpa [h] using hcases
  · rw [drive_add_fuel (by simp [h]), h]
  · simp [h] at hcases
  · simpa [h] using hcases

/-- The record of the step that left RUNNING tells the cause (40_sequencer.md R110). -/
theorem traceRecord_halt_cause {s : State}
    (h : s.nextWord.extractLsb' 8 4 = 0xF#4 ∨ s.nextWord.extractLsb' 8 4 ∈ undefinedOpcodes) :
    let r := traceRecord s.nextWord s
    r.kind = .halt ∧ r.opcode = 0xF#4 ∨ r.kind = .unknownOpcode ∧ r.opcode ∈ undefinedOpcodes := by
  obtain hop | hop := h
  · rw [traceRecord_of_decode s hop (decode_halt hop)]
    exact .inl ⟨rfl, rfl⟩
  · rw [traceRecord_of_decode s rfl rfl, traceEffect_undefined ((decode_opcode s.nextWord).symm ▸ hop)]
    exact .inr ⟨rfl, hop⟩

/-- Settles O42: the run ends with the first step that leaves RUNNING, and that step's record is the last. -/
theorem lastRecordTellsTheHaltCause : Obligations.LastRecordTellsTheHaltCause := by
  intro fuel s t hrun h
  induction fuel generalizing s with
  | zero =>
    rw [drive, if_pos hrun] at h
    cases h
  | succ fuel ih =>
    obtain hc | ⟨-, hpc⟩ | hhalted := step_request_cases s
    · obtain ⟨u, hstep⟩ : ∃ u, step s = .next u := ⟨_, step_of_canFetch hc⟩
      rw [drive_succ_of_step hstep] at h
      cases hu : u.running with
      | true => exact ih u hu h
      | false =>
        rw [drive_of_not_running hu] at h
        cases h
        exact ⟨hu, s.trace, _, step_trace hstep,
          traceRecord_halt_cause ((step_running_eq_false_iff hstep).mp hu)⟩
    · rw [drive_succ_of_pc_out_of_range hrun hpc] at h
      cases h
    · exact absurd (hrun.symm.trans hhalted) (by decide)

/-- A JMP to its own address changes nothing but the trace. -/
theorem step_jmp_to_itself {s : State} (hc : s.canFetch) (hop : s.nextWord.extractLsb' 8 4 = 0x7#4)
    (htarget : (s.nextWord.extractLsb' 0 8).toNat = s.pc.toNat) :
    step s = .next (s.emit (traceRecord s.nextWord s)) := by
  have hpc : jumpTarget (s.nextWord.extractLsb' 0 8) = s.pc := by
    apply BitVec.eq_of_toNat_eq
    rw [jumpTarget_toNat, htarget]
  refine step_of_exec hc ?_
  rw [decode_jmp hop, exec_jmp, hpc]
  rfl

theorem core_run_succ_of_step {s t : State} (h : step s = .next t) (n : Nat) :
    Sys2Proof.core.run (n + 1) s = Sys2Proof.core.run n t := by
  have hstep : Sys2Proof.core.step s = .next t := h
  simp only [Host.Core.run, hstep]

/-- Settles O44: after each step the machine is the same, so the next step is the same JMP. -/
theorem jmpToItselfRunsForEver : Obligations.JmpToItselfRunsForEver := by
  intro s hc hop htarget n
  induction n generalizing s with
  | zero => exact ⟨s, rfl, ⟨rfl, rfl, rfl, rfl⟩, rfl⟩
  | succ n ih =>
    obtain ⟨t, hrun, hsame, hlen⟩ := ih (s.emit (traceRecord s.nextWord s)) hc hop htarget
    refine ⟨t, (core_run_succ_of_step (step_jmp_to_itself hc hop htarget) n).trans hrun, hsame, ?_⟩
    rw [hlen, State.emit_trace, List.length_append, List.length_singleton, Nat.add_assoc, Nat.add_comm 1]

/-- The placed word is at `pc`, and the engine can fetch it. -/
theorem State.placeWord_fetch (s : State) (w : Word) : fetch (s.placeWord w) = .next w := by
  have hc : (s.placeWord w).canFetch := by
    refine ⟨rfl, ?_⟩
    simp only [State.placeWord]
    split
    · assumption
    · exact Nat.zero_le _
  rw [fetch_of_canFetch hc]
  simp [State.placeWord, State.nextWord, State.memRead, Memory.read_write]

/-- In a state that can fetch, placing a word is writing it at `pc`. -/
theorem State.placeWord_of_canFetch {s : State} (h : s.canFetch) (w : Word) :
    s.placeWord w = s.memWrite (fetchAddress s.pc) w := by
  obtain ⟨hrun, hpc⟩ := h
  simp only [State.placeWord, if_pos hpc, State.memWrite, ← hrun]

theorem tableWord_16 {w : Nat} (h : w < 65536) : tableWord 16 w = BitVec.ofNat 16 w := by
  rw [tableWord, Nat.mod_eq_of_lt (show w < 2 ^ 16 from h)]

/-- Settles O45: `withFetchWord` places the word, which in a state that can fetch is one memory write. -/
theorem placedWordIsFetchedNext : Obligations.PlacedWordIsFetchedNext := by
  intro s w hw
  have hword := tableWord_16 hw
  refine ⟨?_, ?_, fun hc => ?_⟩
  · rw [State.withFetchWord, hword, State.placeWord_fetch]
  · rw [decodeTableWord, if_pos (Nat.le_refl 16), hword]
  · rw [State.withFetchWord, State.placeWord_of_canFetch hc]
    exact ⟨rfl, fun _ => rfl, fun a ha => State.memWrite_memRead_other _ _ _ _ ha, rfl⟩

end Sys2Proof.Machine
end
